-- ==== Sys2Proof/Word.lean ====
section
/-! DEFINITION. The two word sizes of the block: a bus word and a data register. -/
namespace Sys2Proof

/-- A bus word: one access of the register window carries 32 bits (spec/20 R54). -/
abbrev Word := BitVec 32

/-- A data register, the 32-byte little-endian buffer of spec/00 R12 read as one unsigned integer (spec/10 R20). -/
abbrev Buf := BitVec 256

/-- A byte of a buffer (spec/00 R12). -/
abbrev Byte := BitVec 8

end Sys2Proof
end

