-- ==== Sys2Proof/Syntax.lean ====
section
/-! DEFINITION. The commands of the block (spec/30 R71) and the host's steps (spec/30 R82, spec/40 R101). -/
namespace Sys2Proof

/-- The five commands, in the order of the opcode table (spec/30 R71). No command has an operand field: each names its
registers implicitly (R72). -/
inductive Instr where
  | sqrtRatio
  | decompress
  | compress
  | legacyConvert
  | erase
deriving DecidableEq, Repr

/-- What a bus access asks for: a read, or a write of a word (spec/20 R54). The word of a write that is not 32 bits wide
is never looked at, because such an access is refused. -/
inductive AccessKind where
  | read
  | write (w : Word)
deriving DecidableEq, Repr

/-- One bus access of the host: `off` is its bus address less `BASE` (spec/20 R50), `width` its width in bytes. -/
structure Access where
  kind  : AccessKind
  off   : Nat
  width : Nat
deriving DecidableEq, Repr

/-- One entry of the schedule, in the notation of spec/30 R82. `access` is a `WR` or an `RD` line; `engine` marks a point at
which the engine's completion step is taken; `reset` is an assertion and release of the reset input, and `during` are the
accesses made while it is asserted (spec/70 R230); `powerLoss` is the platform removing power or clock (spec/60 R227). -/
inductive HostStep where
  | access (a : Access)
  | engine
  | reset (during : List Access)
  | powerLoss
deriving DecidableEq, Repr

end Sys2Proof
end

