-- ==== Sys2Proof/WellFormed.lean ====
section
/-! DEFINITION. Which terms of the syntax the block accepts: every command, and a bus access of one aligned word inside
the window (spec/20 R54). -/
namespace Sys2Proof

/-- A command has no field that could be wrong (spec/30 R72): each of the five is well formed. -/
def Instr.wf : Instr → Bool
  | .sqrtRatio => true
  | .decompress => true
  | .compress => true
  | .legacyConvert => true
  | .erase => true

/-- The access begins at one of the 128 byte addresses the block answers (spec/20 R50). -/
def Access.inWindow (a : Access) : Bool := decide (a.off < 128)

/-- The access is one 32-bit word wide (spec/20 R54). -/
def Access.wordWide (a : Access) : Bool := decide (a.width = 4)

/-- The access is at a multiple of 4 (spec/20 R54). -/
def Access.aligned (a : Access) : Bool := decide (a.off % 4 = 0)

/-- The accesses the block accepts (spec/20 R54). -/
def Access.wf (a : Access) : Bool := a.inWindow && a.wordWide && a.aligned

/-- A schedule entry every part of which the block accepts. Accesses made while reset is asserted are ignored whatever they
are (spec/70 R230), so a reset is well formed with any. -/
def HostStep.wf : HostStep → Bool
  | .access a => a.wf
  | .engine => true
  | .reset _ => true
  | .powerLoss => true

end Sys2Proof
end

