-- ==== Sys2Proof/Decode.lean ====
section
/-! DEFINITION. Decoding a command word (spec/30 R70 to R74), and the encoder written from the same table (R71). -/
namespace Sys2Proof

/-- Why a word is no command (spec/30 R73). -/
inductive Illegal where
  /-- A bit among bits 31 to 4 is set (spec/30 R70). -/
  | zeroFieldSet
  /-- `OPCODE` is 0 or 6 to 15 (spec/30 R73). -/
  | opcodeReserved
  /-- Fewer than the four bytes of a command word (spec/30 R70: one length, 32 bits). -/
  | truncated
deriving DecidableEq, Repr

/-- Field `ZERO`, bits 31:4 (spec/30 R70). -/
def zeroField (w : Word) : BitVec 28 := w.extractLsb' 4 28

/-- Field `OPCODE`, bits 3:0 (spec/30 R70). -/
def opcodeField (w : Word) : BitVec 4 := w.extractLsb' 0 4

/-- The opcode map of spec/30 R71. -/
def opcodeInstr (op : Nat) : Except Illegal Instr :=
  match op with
  | 1 => .ok .sqrtRatio
  | 2 => .ok .decompress
  | 3 => .ok .compress
  | 4 => .ok .legacyConvert
  | 5 => .ok .erase
  | _ => .error .opcodeReserved

/-- The decoder of spec/30 R74, total on every word. -/
def decode (w : Word) : Except Illegal Instr :=
  if zeroField w ≠ 0 then .error .zeroFieldSet else opcodeInstr (opcodeField w).toNat

/-- A command word from its four bytes, the first the least significant (spec/20 R52; log entry 14). -/
def wordOfBytes (b0 b1 b2 b3 : Byte) : Word := b3 ++ b2 ++ b1 ++ b0

/-- The command at the front of a list of bytes, and the bytes after it. -/
def decodeBytes : List Byte → Except Illegal (Instr × List Byte)
  | b0 :: b1 :: b2 :: b3 :: rest =>
    match decode (wordOfBytes b0 b1 b2 b3) with
    | .ok i => .ok (i, rest)
    | .error e => .error e
  | _ => .error .truncated

/-- The whole word of a command, the last column of spec/30 R71. -/
def encode : Instr → Word
  | .sqrtRatio => 0x00000001
  | .decompress => 0x00000002
  | .compress => 0x00000003
  | .legacyConvert => 0x00000004
  | .erase => 0x00000005

/-- The four bytes of a command, least significant first (spec/20 R52). -/
def encodeBytes (i : Instr) : List Byte :=
  [(encode i).extractLsb' 0 8, (encode i).extractLsb' 8 8, (encode i).extractLsb' 16 8, (encode i).extractLsb' 24 8]

/-- The command word that an opcode-table row's bits make: the low `nbits` bits of `w`, every bit above them 0; none when they
do not fit the one command length, 32 bits (spec/30 R70). -/
def tableWord (nbits w : Nat) : Option Word :=
  if w % 2 ^ nbits < 2 ^ 32 then some (BitVec.ofNat 32 (w % 2 ^ nbits)) else none

/-- The command the decoder reads from an opcode-table word; none where it refuses. -/
def decodeTableWord (nbits w : Nat) : Option Instr :=
  match tableWord nbits w with
  | some word => (decode word).toOption
  | none => none

end Sys2Proof
end

