-- ==== Sys2Proof/Machine/Bits.lean ====
section
/-! DEFINITION. Slices of registers: `v[hi:lo]` of spec/00 R12, the words and bytes of a buffer (spec/20 R52). -/
namespace Sys2Proof.Machine

/-- `v[lo+len-1 : lo]` (spec/00 R12). -/
def getBits {n : Nat} (x : BitVec n) (lo len : Nat) : BitVec len := x.extractLsb' lo len

/-- `x` with bits `lo+len-1 : lo` replaced by `v`, every other bit kept. -/
def setBits {n len : Nat} (x : BitVec n) (lo : Nat) (v : BitVec len) : BitVec n :=
  (x &&& ~~~((BitVec.allOnes len).setWidth n <<< lo)) ||| (v.setWidth n <<< lo)

/-- Word `k` of a data register, bits `32k+31 : 32k` (spec/20 R52). -/
def getWord (b : Buf) (k : Fin 8) : Word := getBits b (32 * k.val) 32

/-- A data register with word `k` replaced (spec/20 R55). -/
def setWord (b : Buf) (k : Fin 8) (w : Word) : Buf := setBits b (32 * k.val) w

/-- Byte `j` of a data register, bits `8j+7 : 8j` (spec/20 R52). -/
def getByte (b : Buf) (j : Fin 32) : Byte := getBits b (8 * j.val) 8

/-- The buffer whose bytes are listed from byte 0 up: `Σ b[k]·2^(8k)` (spec/00 R12, R14). -/
def bufOfBytes (bs : List Byte) : Buf :=
  BitVec.ofNat 256 (bs.foldr (fun b n => b.toNat + 256 * n) 0)

end Sys2Proof.Machine
end

