-- ==== Sys2Proof/Config.lean ====
section
/-! DEFINITION. The parameters of spec/00 R7: the fixed numbers, and what an implementation fixes and the spec leaves open
(constants without a body, of which nothing can be proved but what their types and the definitions here say). -/
namespace Sys2Proof.Config

/-- The field prime `P = 2^255 − 19` (spec/00 R7). -/
def P : Nat := 2 ^ 255 - 19

/-- The exponent `EXP = (P − 5)/8` of spec/42 R151 (spec/00 R7; spec/90 C2). -/
def EXP : Nat := (P - 5) / 8

/-- The curve's Edwards constant `d`, as spec/00 R7 and R8 recover it. -/
def D : Nat := 37095705934669439343138083508754565189542113879843219016388785533085940283555

/-- The reference value of `SQRT_M1` (spec/00 R7, R9): `2^((P−1)/4) mod P`, the even one of the two square roots of −1.
The machine does not use it as it stands: see `sqrtM1`. -/
def sqrtM1Ref : Nat := 19681161376707505956807079304988542015446066515923890162744021073123829784752

/-- FREE (spec/00 R9, spec/92 D5): whether the implementation's `SQRT_M1` is the other root of −1 than the reference value.
Log entry 7. -/
opaque sqrtM1Negated : Bool

/-- `SQRT_M1`: one of the exactly two field elements whose square is `P − 1`; which of them is free (spec/00 R9). -/
def sqrtM1 : Nat := if sqrtM1Negated then P - sqrtM1Ref else sqrtM1Ref

/-- FREE (spec/00 R10, spec/92 D6): the number the implementation's `ISO_FACTOR` is taken from. Log entry 8. -/
opaque isoSeed : Nat

/-- `ISO_FACTOR`: a field element in `[1, P)`, any of them (spec/00 R10). -/
def isoFactor : Nat := 1 + isoSeed % (P - 1)

/-- The reference value of `ISO_FACTOR` (spec/00 R7, R10), for vectors that say they depend on it; the machine does not use it. -/
def isoFactorRef : Nat := 51042569399160536130206135233146329284152202253034631822681833788666877215207

/-- `LEGACY_BOUND = P − 1`, as the spec decides (spec/00 R11, spec/92 D7). Log entry 9. -/
def legacyBound : Nat := P - 1

/-- `IDENTITY_ENC`: byte 0 is `01`, bytes 1 to 31 are `00`, the integer 1 (spec/00 R7, spec/30 R81). -/
def identityEnc : Buf := 1

/-- FREE (spec/00 R7, spec/20 R51): a quarter of `BASE`. Log entry 10. -/
opaque baseQuarter : Nat

/-- `BASE`, the bus address of offset 0: the platform's, any multiple of 4 (spec/20 R51). -/
def base : Nat := 4 * baseQuarter

/-- FREE (spec/70 R240): `LAT(op)`, the engine latency of a command, of an illegal word for `none`. Its type says what the
spec says of it, that it depends on the opcode alone; no rule depends on it and no step reads it. Log entry 11. -/
opaque lat : Option Instr → Nat

/-- FREE (spec/70 R232, spec/93 U7): what a data register holds after a power loss and before the next reset. Log entry 6. -/
opaque unresetBuf : Nat → Buf

/-- FREE (spec/70 R232, spec/93 U7): what a 32-bit register holds after a power loss and before the next reset. Log entry 6. -/
opaque unresetWord : Nat → Word

end Sys2Proof.Config
end

