-- ==== Sys2Proof/Machine/State.lean ====
section
/-! DEFINITION. The state of the block (spec/10), the reasons a step can stop, and the state after reset (spec/10 R36). -/
namespace Sys2Proof.Machine

/-- The phase of the block (spec/10 R27). -/
inductive Phase where
  | idle
  | busy
  | fault
deriving DecidableEq, Repr

/-- The codes of `STATUS.OUTCOME` that are ever produced (spec/10 R28; code 6 is reserved and never produced). -/
inductive OutcomeCode where
  | none
  | ok
  | negative
  | errFlag
  | errRange
  | errIllegal
  | fault
deriving DecidableEq, Repr

/-- The causes of the fault: there is exactly one (spec/60 R212). -/
inductive FaultCause where
  | sqrtFailed
deriving DecidableEq, Repr

/-- How a command ends (spec/40 R106): in one `complete(outcome, res, err_byte, err_bit)`, or in `raise Fault(cause)`. -/
inductive Ending where
  | complete (outcome : OutcomeCode) (res : Buf) (errByte : BitVec 5) (errBit : BitVec 3)
  | raise (cause : FaultCause)
deriving DecidableEq, Repr

/-- A word of the register window (spec/20 R50). -/
inductive Port where
  | cmd
  | status
  | reserved
  | opa (k : Fin 8)
  | opb (k : Fin 8)
  | res (k : Fin 8)
deriving DecidableEq, Repr

/-- Whether the block has been reset since power-up (spec/70 R232, spec/60 R227). -/
inductive Power where
  /-- Power is up and no reset has been released since: the block's state is unspecified and an access has no meaning. -/
  | unreset
  /-- The block has been reset: the rules of the spec hold. -/
  | ready
deriving DecidableEq, Repr

/-- The state. `opa`, `opb`, `res`, `status`, `cmdr` are the registers of spec/10 (R20, R21, R22, R26, R31); `power` is implied by
spec/70 R232. The model's own fields: `losses` counts power losses (log entry 6), `host` is the schedule of steps still to
come (log entry 1), `replies` are the words the block has answered to reads, oldest first (log entry 16). -/
structure State where
  opa     : Buf
  opb     : Buf
  res     : Buf
  status  : Word
  cmdr    : Word
  power   : Power
  losses  : Nat
  host    : List HostStep
  replies : List Word
deriving DecidableEq, Repr

/-- Reasons the machine stops with a fault. The block's own fault (spec/60 R212) is none of them: it is a phase, and entering it
is a next state. -/
inductive Fault where
  /-- Raised by a schedule entry that is an access at an offset of 128 or more: it is not the block's and never reaches it
  (spec/20 R51). Safe: the block does nothing there, so no behaviour of the block is lost (log entry 5). -/
  | outsideWindow
deriving DecidableEq, Repr

/-- Reasons a step is refused. -/
inductive Refusal where
  /-- Raised by an arm of `exec` for a command that has no meaning yet; no arm is one now. Safe. -/
  | notModelled (mnemonic : String)
  /-- Raised by a host access that reaches the window and is not one 32-bit word at a multiple of 4: the bus answers with an
  error and a model refuses the host's step (spec/20 R54, spec/92 D14, spec/93 U6). Safe. -/
  | badAccess
  /-- Raised by a host access between power-up and the first reset, to which the spec gives no meaning (spec/70 R232,
  spec/93 U7). Safe. -/
  | beforeReset
deriving DecidableEq, Repr

/-- The machine right after the release of reset (spec/10 R36, spec/70 R230), with nothing scheduled and nothing answered. -/
def State.reset : State where
  opa := 0
  opb := 0
  res := 0
  status := 0
  cmdr := 0
  power := .ready
  losses := 0
  host := []
  replies := []

end Sys2Proof.Machine
end

