-- ==== Sys2Proof/Machine/Flags.lean ====
section
/-! DEFINITION. The fields of `STATUS` (spec/10 R26), the outcome codes (R28) and the phase (R27). -/
namespace Sys2Proof.Machine

/-- `STATUS.BUSY`, bit 0 (spec/10 R26). -/
def statusBusy (st : Word) : Bool := st.getLsbD 0

/-- `STATUS.DONE`, bit 1 (spec/10 R26). -/
def statusDone (st : Word) : Bool := st.getLsbD 1

/-- `STATUS.FAULT`, bit 3 (spec/10 R26). -/
def statusFault (st : Word) : Bool := st.getLsbD 3

/-- `STATUS.OUTCOME`, bits 6:4 (spec/10 R26). -/
def statusOutcome (st : Word) : BitVec 3 := getBits st 4 3

/-- `STATUS.ERR_BYTE`, bits 12:8 (spec/10 R26). -/
def statusErrByte (st : Word) : BitVec 5 := getBits st 8 5

/-- `STATUS.ERR_BIT`, bits 15:13 (spec/10 R26). -/
def statusErrBit (st : Word) : BitVec 3 := getBits st 13 3

/-- `STATUS.BUSY <- v`. -/
def setBusy (v : Bool) (st : Word) : Word := setBits st 0 (BitVec.ofBool v)

/-- `STATUS.DONE <- v`. -/
def setDone (v : Bool) (st : Word) : Word := setBits st 1 (BitVec.ofBool v)

/-- `STATUS.FAULT <- v`. -/
def setFault (v : Bool) (st : Word) : Word := setBits st 3 (BitVec.ofBool v)

/-- `STATUS.OUTCOME <- v`. -/
def setOutcome (v : BitVec 3) (st : Word) : Word := setBits st 4 v

/-- `STATUS.ERR_BYTE <- v`. -/
def setErrByte (v : BitVec 5) (st : Word) : Word := setBits st 8 v

/-- `STATUS.ERR_BIT <- v`. -/
def setErrBit (v : BitVec 3) (st : Word) : Word := setBits st 13 v

/-- The codes of spec/10 R28. -/
def outcomeBits : OutcomeCode → BitVec 3
  | .none => 0
  | .ok => 1
  | .negative => 2
  | .errFlag => 3
  | .errRange => 4
  | .errIllegal => 5
  | .fault => 7

/-- What the host reads at offset 0x04: the fields, the reserved bits 2, 7 and 31:16 reading 0 (spec/10 R26). -/
def statusRead (st : Word) : Word := st &&& 0x0000FF7B

/-- The phase, read off `STATUS` (spec/10 R27): `FAULT` first, then `BUSY`, else `IDLE`. -/
def phaseOf (st : Word) : Phase :=
  if statusFault st then .fault else if statusBusy st then .busy else .idle

/-- The status word the issue step leaves (spec/40 R103). -/
def issuedStatus (st : Word) : Word :=
  setErrBit 0 (setErrByte 0 (setOutcome (outcomeBits .none) (setDone false (setBusy true st))))

/-- The status word `complete` leaves (spec/00 R13, spec/40 R106). -/
def completedStatus (o : OutcomeCode) (errByte : BitVec 5) (errBit : BitVec 3) (st : Word) : Word :=
  setDone true (setBusy false (setErrBit errBit (setErrByte errByte (setOutcome (outcomeBits o) st))))

/-- The status word fault entry leaves (spec/60 R214). -/
def faultStatus (st : Word) : Word :=
  setDone true (setBusy false (setErrBit 0 (setErrByte 0 (setOutcome (outcomeBits .fault) (setFault true st)))))

end Sys2Proof.Machine
end

