-- ==== Sys2Proof/Machine/Field.lean ====
section
/-! DEFINITION. The field primitives of spec/41, on canonical representatives in `[0, P)` held as natural numbers (R120). -/
namespace Sys2Proof.Machine

open Sys2Proof.Config

/-- `SQRT_M1` as the commands use it (spec/00 R9). -/
def blockSqrtM1 : Nat := Config.sqrtM1

/-- `ISO_FACTOR` as `LEGACY_CONVERT` uses it (spec/00 R10). -/
def blockIsoFactor : Nat := Config.isoFactor

/-- `fdec` (spec/41 R121): never reduces. -/
def fdec (n : Nat) : Option Nat := if n < P then some n else none

/-- `fenc` (spec/41 R122). -/
def fenc (a : Nat) : Buf := BitVec.ofNat 256 a

/-- `fadd` (spec/41 R123). -/
def fadd (a b : Nat) : Nat := (a + b) % P

/-- `fsub` (spec/41 R124). -/
def fsub (a b : Nat) : Nat := if b ≤ a then a - b else a + P - b

/-- `fneg` (spec/41 R125). -/
def fneg (a : Nat) : Nat := (P - a) % P

/-- `fmul` (spec/41 R126): the exact product, then one reduction. -/
def fmul (a b : Nat) : Nat := a * b % P

/-- `fsq` (spec/41 R127). -/
def fsq (a : Nat) : Nat := fmul a a

/-- Square and multiply from the top bit of `e` down, on at most `fuel` bits. -/
def fpowGo : Nat → Nat → Nat → Nat
  | 0, _, _ => 1
  | fuel + 1, a, e =>
    if e = 0 then 1
    else if e % 2 = 1 then fmul (fsq (fpowGo fuel a (e / 2))) a
    else fsq (fpowGo fuel a (e / 2))

/-- `fpow` (spec/41 R128): `a^e mod P`, as `Sys2Proof.Laws.fpow_eq` proves. -/
def fpow (a e : Nat) : Nat := fpowGo (e.log2 + 1) a e

/-- `v³` (spec/41 R129). -/
def fcube (v : Nat) : Nat := fmul (fsq v) v

/-- `v⁷` (spec/41 R129). -/
def fpow7 (v : Nat) : Nat := fmul (fsq (fcube v)) v

/-- `finv` (spec/41 R131): no value at 0, the model's choice (spec/93 U5; log entry 20). No command uses it. -/
def finv (a : Nat) : Option Nat := if a = 0 then none else some (fpow a (P - 2))

/-- `feq` (spec/41 R133). -/
def feq (a b : Nat) : Bool := a == b

/-- `isneg` (spec/41 R134): bit 0 of the canonical representative. -/
def isneg (a : Nat) : Bool := a % 2 == 1

/-- `sel` (spec/41 R135): an ordinary choice in a model of values. -/
def sel (c : Bool) (a b : Nat) : Nat := if c then a else b

/-- `cneg` (spec/41 R136). -/
def cneg (c : Bool) (a : Nat) : Nat := sel c (fneg a) a

/-- `fabs` (spec/41 R137): the non-negative one of `a` and `−a`. -/
def fabs (a : Nat) : Nat := cneg (isneg a) a

end Sys2Proof.Machine
end

