-- ==== Sys2Proof/Machine/Operands.lean ====
section
/-! DEFINITION. The operand formats of spec/30 R75 to R78, operand assembly (R79) and result assembly (R80). -/
namespace Sys2Proof.Machine

open Sys2Proof.Config

/-- `flag(b) = b[255]` (spec/30 section 2). -/
def flagBit (b : Buf) : Bool := b.getLsbD 255

/-- `mag(b) = b[254:0]` (spec/30 section 2). -/
def magnitude (b : Buf) : Nat := (getBits b 0 255).toNat

/-- A buffer in format `FE32`: all 256 bits, no split (spec/30 R75, R79). -/
def decodeFE32 (b : Buf) : Option Nat := fdec b.toNat

/-- A buffer in format `XC32`: the sign of Y and the X coordinate (spec/30 R76, R79). -/
def decodeXC32 (b : Buf) : Option (Bool × Nat) :=
  match fdec (magnitude b) with
  | some x => some (flagBit b, x)
  | none => none

/-- A buffer in format `YC32`: the sign of X and the Y coordinate (spec/30 R77, R79). -/
def decodeYC32 (b : Buf) : Option (Bool × Nat) :=
  match fdec (magnitude b) with
  | some y => some (flagBit b, y)
  | none => none

/-- A buffer in format `LX32` (spec/30 R78, spec/45 R190, R191, R194): the flag bit is checked first, then the raw magnitude
against `LEGACY_BOUND`; the code is the outcome of a failed check. -/
def decodeLX32 (b : Buf) : Except OutcomeCode Nat :=
  if flagBit b then .error .errFlag
  else if legacyBound < magnitude b then .error .errRange
  else .ok (magnitude b)

/-- A result in format `XC32` or `YC32`: `value + flag·2^255` (spec/30 R80). -/
def assemble (value : Nat) (flag : Bool) : Buf := setBits (fenc value) 255 (BitVec.ofBool flag)

end Sys2Proof.Machine
end

