-- ==== Sys2Proof/Machine/Ops.lean ====
section
/-! DEFINITION. The named operations over the registers: issue, completion, fault entry and the one way out of it, operand
writes, the port reads, and what a power loss leaves. -/
namespace Sys2Proof.Machine

/-- The phase of the block (spec/10 R27). -/
def phase (s : State) : Phase := phaseOf s.status

/-- Issue of word `w` (spec/40 R103): the word is latched unexamined, the previous result and outcome are cleared. -/
def issue (w : Word) (s : State) : State :=
  { s with cmdr := w, res := 0, status := issuedStatus s.status }

/-- `complete(outcome, res, err_byte, err_bit)` (spec/00 R13, spec/40 R106). -/
def complete (o : OutcomeCode) (r : Buf) (errByte : BitVec 5) (errBit : BitVec 3) (s : State) : State :=
  { s with res := r, status := completedStatus o errByte errBit s.status }

/-- TAKING THE EXCEPTION: `raise Fault(cause)` (spec/60 R214). Nothing is saved and control goes nowhere; the cause is recorded
by the fault bit and outcome 7 alone, since there is only one (R212). -/
def raiseFault (_cause : FaultCause) (s : State) : State :=
  { s with res := 0, status := faultStatus s.status }

/-- THE RETURN FROM IT, and the reset step itself (spec/70 R230, R231, spec/60 R215, R216): every register at the value of
spec/10 R36. The schedule, the words already answered and the count of power losses are not the block's. -/
def resetBlock (s : State) : State :=
  { State.reset with losses := s.losses, host := s.host, replies := s.replies }

/-- The end of a command (spec/40 R106). -/
def finish (e : Ending) (s : State) : State :=
  match e with
  | .complete o r errByte errBit => complete o r errByte errBit s
  | .raise cause => raiseFault cause s

/-- A power loss (spec/60 R227, spec/70 R232, spec/93 U7): until the next reset every register holds a free value. -/
def losePower (s : State) : State :=
  { s with
    opa := Config.unresetBuf (3 * s.losses)
    opb := Config.unresetBuf (3 * s.losses + 1)
    res := Config.unresetBuf (3 * s.losses + 2)
    status := Config.unresetWord (2 * s.losses)
    cmdr := Config.unresetWord (2 * s.losses + 1)
    power := .unreset
    losses := s.losses + 1 }

/-- The window's map (spec/20 R50), from an offset below 128. -/
def portOf (off : Nat) : Port :=
  if off / 4 = 0 then .cmd
  else if off / 4 = 1 then .status
  else if off / 4 < 8 then .reserved
  else if off / 4 < 16 then .opa (Fin.ofNat 8 (off / 4))
  else if off / 4 < 24 then .opb (Fin.ofNat 8 (off / 4))
  else .res (Fin.ofNat 8 (off / 4))

/-- What a host read returns (spec/20 R50, R56). -/
def readPort (p : Port) (s : State) : Word :=
  match p with
  | .cmd => 0
  | .status => statusRead s.status
  | .reserved => 0
  | .opa k => getWord s.opa k
  | .opb k => getWord s.opb k
  | .res k => getWord s.res k

/-- What a host write does (spec/20 R50, R55, spec/40 R102, R104). -/
def writePort (p : Port) (w : Word) (s : State) : State :=
  match p with
  | .cmd => if phase s = .idle then issue w s else s
  | .status => s
  | .reserved => s
  | .opa k => if phase s = .idle then { s with opa := setWord s.opa k w } else s
  | .opb k => if phase s = .idle then { s with opb := setWord s.opb k w } else s
  | .res _ => s

/-- A host read hands the word to the host and changes nothing of the block (spec/20 R56). -/
def answer (w : Word) (s : State) : State := { s with replies := s.replies ++ [w] }

/-- The schedule moves past the step that is being taken. -/
def withHost (rest : List HostStep) (s : State) : State := { s with host := rest }

end Sys2Proof.Machine
end

