-- ==== Sys2Proof/Machine/SqrtRatio.lean ====
section
/-! DEFINITION. The function `sqrt_ratio` (spec/42 R150 to R157) and the command `SQRT_RATIO` (R158 to R160). -/
namespace Sys2Proof.Machine

open Sys2Proof.Config

/-- The candidate root `r0` (spec/42 R151). -/
def rootCandidate (u v : Nat) : Nat := fmul (fmul u (fcube v)) (fpow (fmul u (fpow7 v)) EXP)

/-- The check value (spec/42 R152). -/
def rootCheck (u v : Nat) : Nat := fmul v (fsq (rootCandidate u v))

/-- `correct` (spec/42 R153). -/
def rootCorrect (u v : Nat) : Bool := feq (rootCheck u v) u

/-- `flipped` (spec/42 R153). -/
def rootFlipped (u v : Nat) : Bool := feq (rootCheck u v) (fneg u)

/-- `flipped_i` (spec/42 R153), for the square root `i` of −1. -/
def rootFlippedI (i u v : Nat) : Bool := feq (rootCheck u v) (fmul (fneg u) i)

/-- The corrected candidate `r1` (spec/42 R154). -/
def rootCorrected (i u v : Nat) : Nat :=
  sel (rootFlipped u v || rootFlippedI i u v) (fmul i (rootCandidate u v)) (rootCandidate u v)

/-- `sqrt_ratio(u, v)` with the square root `i` of −1 as an argument (spec/00 R7: a model takes it as one): the found bit of
R155, which `flipped_i` does not enter, and the root of R156, made non-negative in every case. -/
def sqrtRatioWith (i u v : Nat) : Bool × Nat :=
  (rootCorrect u v || rootFlipped u v, fabs (rootCorrected i u v))

/-- `sqrt_ratio(u, v)` as the block computes it (spec/42 R150). -/
def sqrtRatio (u v : Nat) : Bool × Nat := sqrtRatioWith blockSqrtM1 u v

/-- How `SQRT_RATIO` ends on operands `a` and `b` (spec/42 R158, R159, R160). -/
def sqrtRatioEnding (i : Nat) (a b : Buf) : Ending :=
  match decodeFE32 a, decodeFE32 b with
  | some u, some v =>
    if (sqrtRatioWith i u v).1 then .complete .ok (fenc (sqrtRatioWith i u v).2) 0 0
    else .complete .negative (fenc (sqrtRatioWith i u v).2) 0 0
  | _, _ => .complete .errRange 0 0 0

/-- `SQRT_RATIO` (spec/42 R158). -/
def execSqrtRatio (s : State) : Host.Outcome State Fault Refusal :=
  .next (finish (sqrtRatioEnding blockSqrtM1 s.opa s.opb) s)

end Sys2Proof.Machine
end

