-- ==== Sys2Proof/Machine/Compress.lean ====
section
/-! DEFINITION. The command `COMPRESS` (spec/44). -/
namespace Sys2Proof.Machine

open Sys2Proof.Config

/-- The root that `COMPRESS` asks for at the Y coordinate `y`: `sqrt_ratio(y² − 1, d·y² + 1)` (spec/44 R180). -/
def compressRoot (i y : Nat) : Bool × Nat :=
  sqrtRatioWith i (fsub (fsq y) 1) (fadd (fmul D (fsq y)) 1)

/-- How `COMPRESS` ends on operand `a` (spec/44 R180 to R184): a failed root raises the fault. -/
def compressEnding (i : Nat) (a : Buf) : Ending :=
  match decodeYC32 a with
  | some (sx, y) =>
    if (compressRoot i y).1 then
      .complete .ok (assemble (cneg sx (compressRoot i y).2) (isneg y)) 0 0
    else .raise .sqrtFailed
  | none => .complete .errRange 0 0 0

/-- `COMPRESS` (spec/44 R180). -/
def execCompress (s : State) : Host.Outcome State Fault Refusal :=
  .next (finish (compressEnding blockSqrtM1 s.opa) s)

end Sys2Proof.Machine
end

