-- ==== Sys2Proof/Machine/Decompress.lean ====
section
/-! DEFINITION. The command `DECOMPRESS` (spec/43). -/
namespace Sys2Proof.Machine

open Sys2Proof.Config

/-- The root that `DECOMPRESS` asks for at the X coordinate `x`: `sqrt_ratio(−x² − 1, d·x² − 1)` (spec/43 R170). -/
def decompressRoot (i x : Nat) : Bool × Nat :=
  sqrtRatioWith i (fsub (fneg (fsq x)) 1) (fsub (fmul D (fsq x)) 1)

/-- How `DECOMPRESS` ends on operand `a` (spec/43 R170 to R173): no point discards the root. -/
def decompressEnding (i : Nat) (a : Buf) : Ending :=
  match decodeXC32 a with
  | some (sign, x) =>
    if (decompressRoot i x).1 then
      .complete .ok (assemble (cneg sign (decompressRoot i x).2) (isneg x)) 0 0
    else .complete .negative 0 0 0
  | none => .complete .errRange 0 0 0

/-- `DECOMPRESS` (spec/43 R170). -/
def execDecompress (s : State) : Host.Outcome State Fault Refusal :=
  .next (finish (decompressEnding blockSqrtM1 s.opa) s)

end Sys2Proof.Machine
end

