-- ==== Sys2Proof/Machine/Erase.lean ====
section
/-! DEFINITION. The command `ERASE` (spec/46 R200, R201) and the completion of an illegal word (R202). -/
namespace Sys2Proof.Machine

/-- The secure erase of the two operand registers (spec/46 R200). -/
def eraseOperands (s : State) : State :=
  { s with opa := Config.identityEnc, opb := Config.identityEnc }

/-- `ERASE` (spec/46 R200): the only command that writes an operand register (R201). -/
def execErase (s : State) : Host.Outcome State Fault Refusal :=
  .next (finish (.complete .ok Config.identityEnc 0 0) (eraseOperands s))

/-- A word that is no command (spec/46 R202): no operand is examined, and it is a normal completion. -/
def execIllegal (s : State) : Host.Outcome State Fault Refusal :=
  .next (finish (.complete .errIllegal 0 0 0) s)

end Sys2Proof.Machine
end

