-- ==== Sys2Proof/Machine/LegacyConvert.lean ====
section
/-! DEFINITION. The command `LEGACY_CONVERT` (spec/45). -/
namespace Sys2Proof.Machine

/-- How `LEGACY_CONVERT` ends on operand `a`, for the isomorphism factor `iso` (spec/45 R190 to R194): a set flag bit is
reported at byte 31, bit 7; the sign bit of the result is 0 (R193). -/
def legacyConvertEnding (iso : Nat) (a : Buf) : Ending :=
  match decodeLX32 a with
  | .ok m => .complete .ok (assemble (fmul m iso) false) 0 0
  | .error .errFlag => .complete .errFlag 0 31 7
  | .error e => .complete e 0 0 0

/-- `LEGACY_CONVERT` (spec/45 R190). -/
def execLegacyConvert (s : State) : Host.Outcome State Fault Refusal :=
  .next (finish (legacyConvertEnding blockIsoFactor s.opa) s)

end Sys2Proof.Machine
end

