-- ==== Sys2Proof/Machine/Dispatch.lean ====
section
/-! DEFINITION. The meaning of each command: the completion step's case of spec/40 R106. -/
namespace Sys2Proof.Machine

def exec (i : Instr) (s : State) : Host.Outcome State Fault Refusal :=
  match i with
  | .sqrtRatio => Sys2Proof.Machine.execSqrtRatio s
  | .decompress => Sys2Proof.Machine.execDecompress s
  | .compress => Sys2Proof.Machine.execCompress s
  | .legacyConvert => Sys2Proof.Machine.execLegacyConvert s
  | .erase => Sys2Proof.Machine.execErase s

end Sys2Proof.Machine
end

