-- ==== Sys2Proof/Machine/Window.lean ====
section
/-! DEFINITION. The register window as the host reaches it (spec/20). -/
namespace Sys2Proof.Machine

/-- The offset in the window of a bus address; none where the address is not the block's (spec/20 R50, R51). -/
def windowOffset (addr : Nat) : Option Nat :=
  if Config.base ≤ addr ∧ addr < Config.base + 128 then some (addr - Config.base) else none

/-- An access the block accepts (spec/20 R54 to R56). -/
def performAccess (a : Access) (s : State) : State :=
  match a.kind with
  | .read => answer (readPort (portOf a.off) s) s
  | .write w => writePort (portOf a.off) w s

/-- One bus access. Outside the window it is not the block's (spec/20 R51); before the first reset it has no meaning (spec/70
R232); any other than one aligned word is refused (spec/20 R54). -/
def hostAccess (a : Access) (s : State) : Host.Outcome State Fault Refusal :=
  if ¬ a.inWindow then .fault .outsideWindow
  else if s.power = .unreset then .refused .beforeReset
  else if ¬ a.wf then .refused .badAccess
  else .next (performAccess a s)

end Sys2Proof.Machine
end

