-- ==== Sys2Proof/Machine/Sequencer.lean ====
section
/-! DEFINITION. Which step comes next and what it does (spec/40), over the meaning of a command as an argument. -/
namespace Sys2Proof.Machine

/-- The completion step is enabled if and only if the phase is `BUSY` (spec/40 R105), once the block has been reset. -/
def engineEnabled (s : State) : Bool := decide (s.power = .ready ∧ phase s = .busy)

/-- The command held for the completion step (spec/40 R106: `w <- CMDR`, then the decoder of spec/30 R74). -/
def fetchCommand (s : State) : Except Illegal Instr := decode s.cmdr

/-- The engine's turn (spec/40 R105, R106, spec/46 R202): where its step is not enabled, nothing happens (R101). -/
def engineTurn (run : Instr → State → Host.Outcome State Fault Refusal) (s : State) :
    Host.Outcome State Fault Refusal :=
  if engineEnabled s then
    match fetchCommand s with
    | .ok i => run i s
    | .error _ => execIllegal s
  else .next s

/-- One step (spec/40 R101): the next entry of the schedule, or, when nothing is scheduled, the engine's turn, since a command
in flight completes (spec/70 R241; log entries 1 to 3). Accesses made while reset is asserted are ignored (R230). -/
def nextStep (run : Instr → State → Host.Outcome State Fault Refusal) (s : State) :
    Host.Outcome State Fault Refusal :=
  match s.host with
  | [] => engineTurn run s
  | .engine :: rest => engineTurn run (withHost rest s)
  | .access a :: rest => hostAccess a (withHost rest s)
  | .reset _ :: rest => .next (resetBlock (withHost rest s))
  | .powerLoss :: rest => .next (losePower (withHost rest s))

/-- A reset block with an opcode-table word just issued and the engine next: `CMDR` holds the word, `RES` is 0, `STATUS` is the
busy word (spec/40 R103), nothing is scheduled before the completion step. A word of more than 32 bits does not fit `CMDR` and
leaves no command in it. -/
def loadCommand (nbits w : Nat) (s : State) : State :=
  { s with
    cmdr := match tableWord nbits w with
      | some word => word
      | none => 0
    res := 0
    status := 0x00000001
    power := .ready
    host := [] }

end Sys2Proof.Machine
end

