-- ==== Sys2Proof/Machine/Step.lean ====
section
/-! DEFINITION. The step of the machine, and a state whose next step runs a given command word. -/
namespace Sys2Proof.Machine

/-- One step of the block and its host (spec/40 R101). -/
def step (s : State) : Host.Outcome State Fault Refusal := Sys2Proof.Machine.nextStep Sys2Proof.Machine.exec s

/-- `s` with the command of an opcode-table word in flight and its completion step next (log entry 18). -/
def State.withFetchWord (s : State) (nbits w : Nat) : State := Sys2Proof.Machine.loadCommand nbits w s

end Sys2Proof.Machine
end

