-- ==== Sys2Proof/Machine/HostNotation.lean ====
section
/-! DEFINITION. The host notation of spec/30 R82 and the expansions of its pseudo-operations (R83) as pieces of a schedule. A
schedule is a trace, the accesses as they fall: so a `WAIT` says how many polls come before the completion step, and a `MOVRA`
says the bytes it reads. -/
namespace Sys2Proof.Machine

/-- `WR off, w` (spec/30 R82). -/
def wr (off : Nat) (w : Word) : HostStep := .access ⟨.write w, off, 4⟩

/-- `RD off` (spec/30 R82). -/
def rd (off : Nat) : HostStep := .access ⟨.read, off, 4⟩

/-- `CMD` = 0x00 (spec/30 R82). -/
def offCmd : Nat := 0x00

/-- `STATUS` = 0x04 (spec/30 R82). -/
def offStatus : Nat := 0x04

/-- `OPA[k]` = 0x20 + 4k (spec/30 R82). -/
def offOpa (k : Fin 8) : Nat := 0x20 + 4 * k.val

/-- `OPB[k]` = 0x40 + 4k (spec/30 R82). -/
def offOpb (k : Fin 8) : Nat := 0x40 + 4 * k.val

/-- `RES[k]` = 0x60 + 4k (spec/30 R82). -/
def offRes (k : Fin 8) : Nat := 0x60 + 4 * k.val

/-- `RESET` (spec/30 R82), with no access while it is asserted. -/
def resetLine : HostStep := .reset []

/-- A command mnemonic as a pseudo-operation: `WR CMD, <its word>` (spec/30 R83). -/
def issueCommand (i : Instr) : HostStep := wr offCmd (encode i)

/-- `LD256 OPA, b` (spec/30 R83): eight word writes in ascending k. -/
def ld256Opa (b : Buf) : List HostStep := (List.finRange 8).map fun k => wr (offOpa k) (getWord b k)

/-- `LD256 OPB, b` (spec/30 R83). -/
def ld256Opb (b : Buf) : List HostStep := (List.finRange 8).map fun k => wr (offOpb k) (getWord b k)

/-- `RD256 OPA` (spec/30 R83): eight word reads in ascending k. -/
def rd256Opa : List HostStep := (List.finRange 8).map fun k => rd (offOpa k)

/-- `RD256 OPB` (spec/30 R83). -/
def rd256Opb : List HostStep := (List.finRange 8).map fun k => rd (offOpb k)

/-- `RD256 RES` (spec/30 R83). -/
def rd256Res : List HostStep := (List.finRange 8).map fun k => rd (offRes k)

/-- `WAIT` (spec/30 R83) when the completion step is taken after `polls` polls that read `BUSY = 1`. -/
def waitTrace (polls : Nat) : List HostStep :=
  List.replicate polls (rd offStatus) ++ [.engine, rd offStatus]

/-- `MOVRA` (spec/30 R83) when `RES` reads as `b`: `RD256 RES`, then `LD256 OPA` of the bytes read. -/
def movraTrace (b : Buf) : List HostStep := rd256Res ++ ld256Opa b

/-- An access at a bus address: outside the window it never reaches the block and is no step of it (spec/20 R51). -/
def busAccess (addr : Nat) (kind : AccessKind) (width : Nat) : List HostStep :=
  match windowOffset addr with
  | some off => [.access ⟨kind, off, width⟩]
  | none => []

end Sys2Proof.Machine
end

