-- ==== Sys2Proof/Safety.lean ====
section
/-! DEFINITION. What counts as a safe run, and the words statements about the block are made in. -/
namespace Sys2Proof.Safety

open Sys2Proof.Machine Sys2Proof.Config

/-- The words `STATUS` can take (spec/10 R30). -/
def legalStatus (st : Word) : Prop :=
  st = 0x00000000 ∨ st = 0x00000001 ∨ st = 0x00000012 ∨ st = 0x00000022 ∨
  st = 0x0000FF32 ∨ st = 0x00000042 ∨ st = 0x00000052 ∨ st = 0x0000007A

/-- A state in which the block may be left (spec/40 R108, spec/60 R215): reset, nothing in flight, no fault. -/
def restful (s : State) : Prop := s.power = .ready ∧ phase s = .idle

/-- What every reset block keeps: `STATUS` is one of its words (spec/10 R30); `RES` is 0 unless the last outcome is `OK` or
`NEGATIVE` (spec/10 R22, spec/70 R235); after `OK` the low 255 bits of `RES` are a canonical field element (spec/30 R80); after
`NEGATIVE` `RES` is one as a whole, and even (spec/42 R156, R160, spec/43 R172). -/
def Inv (s : State) : Prop :=
  s.power = .ready →
    legalStatus s.status ∧
    (s.status ≠ 0x00000012 → s.status ≠ 0x00000022 → s.res = 0) ∧
    (s.status = 0x00000012 → s.res.toNat % 2 ^ 255 < P) ∧
    (s.status = 0x00000022 → s.res.toNat < P ∧ s.res.toNat % 2 = 0)

/-- The point `(x, y)` is on the curve `−x² + y² = 1 + D·x²·y²` over the field (spec/00 R2). -/
def onCurve (x y : Nat) : Prop := y ^ 2 % P = (1 + x ^ 2 + D * x ^ 2 * y ^ 2) % P

/-- Between status words `old` and `new` exactly what `complete` or fault entry writes has changed: `BUSY` is 0, `DONE` is 1, the
three fields are `code`, `errByte` and `errBit`; `FAULT` and the reserved bits are as before (spec/00 R13, spec/10 R26). -/
def statusCompleted (old new : Word) (code : BitVec 3) (errByte : BitVec 5) (errBit : BitVec 3) : Prop :=
  new.getLsbD 0 = false ∧ new.getLsbD 1 = true ∧
  new.extractLsb' 4 3 = code ∧ new.extractLsb' 8 5 = errByte ∧ new.extractLsb' 13 3 = errBit ∧
  new.getLsbD 2 = old.getLsbD 2 ∧ new.getLsbD 3 = old.getLsbD 3 ∧ new.getLsbD 7 = old.getLsbD 7 ∧
  new.extractLsb' 16 16 = old.extractLsb' 16 16

/-- Between status words `old` and `new` exactly what fault entry writes has changed: `BUSY` is 0, `DONE` and `FAULT` are 1,
`OUTCOME` is 7, the position fields are 0; the reserved bits are as before (spec/60 R214). -/
def statusFaulted (old new : Word) : Prop :=
  new.getLsbD 0 = false ∧ new.getLsbD 1 = true ∧ new.getLsbD 3 = true ∧
  new.extractLsb' 4 3 = 7 ∧ new.extractLsb' 8 5 = 0 ∧ new.extractLsb' 13 3 = 0 ∧
  new.getLsbD 2 = old.getLsbD 2 ∧ new.getLsbD 7 = old.getLsbD 7 ∧
  new.extractLsb' 16 16 = old.extractLsb' 16 16

/-- Between status words `old` and `new` exactly what the issue step writes has changed: `BUSY` is 1, `DONE` and the three fields
are 0; `FAULT` and the reserved bits are as before (spec/40 R103). -/
def statusIssued (old new : Word) : Prop :=
  new.getLsbD 0 = true ∧ new.getLsbD 1 = false ∧
  new.extractLsb' 4 3 = 0 ∧ new.extractLsb' 8 5 = 0 ∧ new.extractLsb' 13 3 = 0 ∧
  new.getLsbD 2 = old.getLsbD 2 ∧ new.getLsbD 3 = old.getLsbD 3 ∧ new.getLsbD 7 = old.getLsbD 7 ∧
  new.extractLsb' 16 16 = old.extractLsb' 16 16

/-- Nothing of `t` differs from `s` but what a completing command may write, `RES` and `STATUS`. -/
def sameButResult (s t : State) : Prop :=
  t.opa = s.opa ∧ t.opb = s.opb ∧ t.cmdr = s.cmdr ∧ t.power = s.power ∧ t.losses = s.losses ∧
  t.host = s.host ∧ t.replies = s.replies

/-- The registers of the block are the same in `s` and `t`. -/
def sameRegisters (s t : State) : Prop :=
  t.opa = s.opa ∧ t.opb = s.opb ∧ t.res = s.res ∧ t.status = s.status ∧ t.cmdr = s.cmdr ∧ t.power = s.power

/-- The field element in the low 255 bits of a buffer (spec/30 section 2). -/
def lowPart (b : Buf) : Nat := b.toNat % 2 ^ 255

/-- Bit 255 of a buffer is set (spec/30 section 2). -/
def topBit (b : Buf) : Prop := 2 ^ 255 ≤ b.toNat

/-- A square root of −1 among the canonical representatives (spec/00 R9). -/
def rootOfMinusOne (i : Nat) : Prop := i < P ∧ i * i % P = P - 1

end Sys2Proof.Safety
end

