-- ==== Sys2Proof/Certificates/Slice0/Obligations.lean ====
section
/-! DEFINITION. The statements about the block that the provers are to settle. -/

open Sys2Proof Sys2Proof.Machine Sys2Proof.Safety Sys2Proof.Config

/-! ## Command words -/

/-- spec/30 R74: the decoder as a function of bits 31:4 and 3:0, total on every 32-bit word. -/
def Obligations.DecodeIsTheOpcodeTable : Prop :=
  ∀ w : Word, (decode w).toOption =
    if w.toNat / 16 ≠ 0 then none
    else if w.toNat % 16 = 1 then some .sqrtRatio
    else if w.toNat % 16 = 2 then some .decompress
    else if w.toNat % 16 = 3 then some .compress
    else if w.toNat % 16 = 4 then some .legacyConvert
    else if w.toNat % 16 = 5 then some .erase
    else none

/-- Sanity: the five words of spec/30 R71, written out bit by bit, decode to their commands. -/
def Obligations.WrittenWordsDecode : Prop :=
  decode 0b00000000000000000000000000000001 = .ok .sqrtRatio ∧
  decode 0b00000000000000000000000000000010 = .ok .decompress ∧
  decode 0b00000000000000000000000000000011 = .ok .compress ∧
  decode 0b00000000000000000000000000000100 = .ok .legacyConvert ∧
  decode 0b00000000000000000000000000000101 = .ok .erase

/-- Decode and encode agree in both directions, for words and for the bytes of a stream: every command decodes from its own
word and bytes, and nothing else decodes to it (spec/30 R70, R71; the byte order of a command word is log entry 14). -/
def Obligations.DecodeAndEncodeAgree : Prop :=
  (∀ i : Instr, i.wf = true → decode (encode i) = .ok i) ∧
  (∀ (w : Word) (i : Instr), decode w = .ok i → w = encode i) ∧
  (∀ (i : Instr) (rest : List Byte), i.wf = true → decodeBytes (encodeBytes i ++ rest) = .ok (i, rest)) ∧
  (∀ (bs : List Byte) (i : Instr) (rest : List Byte), decodeBytes bs = .ok (i, rest) → bs = encodeBytes i ++ rest)

/-! ## Reset -/

/-- spec/10 R36: every piece of state right after reset. -/
def Obligations.ResetStateValues : Prop :=
  State.reset.opa = 0 ∧ State.reset.opb = 0 ∧ State.reset.res = 0 ∧ State.reset.status = 0x00000000 ∧
  State.reset.cmdr = 0 ∧ phase State.reset = .idle ∧ readPort .cmd State.reset = 0

/-- spec/70 R230: reset in any state, whatever accesses are made while it is asserted, leaves the state of spec/10 R36; the
schedule goes on. That those accesses answer no word is the model's choice (log entries 13 and 16). -/
def Obligations.ResetFromAnyState : Prop :=
  ∀ (s : State) (during : List Access) (rest : List HostStep), s.host = .reset during :: rest →
    ∃ t, step s = .next t ∧ t.opa = 0 ∧ t.opb = 0 ∧ t.res = 0 ∧ t.status = 0x00000000 ∧ t.cmdr = 0 ∧
      phase t = .idle ∧ t.power = .ready ∧ t.host = rest ∧ t.replies = s.replies

/-- spec/70 R231, "After any reset nothing of the earlier state can be read": two states with a reset next step to states with
the same registers. -/
def Obligations.ResetForgetsEverything : Prop :=
  ∀ (s s' : State) (d d' : List Access) (rest rest' : List HostStep),
    s.host = .reset d :: rest → s'.host = .reset d' :: rest' →
    ∃ t t', step s = .next t ∧ step s' = .next t' ∧ sameRegisters t t'

/-! ## The invariant -/

/-- The state after reset has the invariant of `Sys2Proof.Safety.Inv`. -/
def Obligations.ResetMeetsInvariant : Prop := Inv State.reset

/-- Every step keeps it: `STATUS` stays one of its eight words (spec/10 R30), and `RES` is 0, canonical or even as the outcome says
(spec/10 R22, spec/30 R80, spec/42 R156, R160, spec/43 R172, spec/70 R235). -/
def Obligations.EveryStepKeepsInvariant : Prop :=
  ∀ s t : State, Inv s → step s = .next t → Inv t

/-- The eight words of spec/10 R30 are exactly the words that meet its clauses (a) to (f) with the positions of R29 and the codes
of R28, and the host reads each as it stands. -/
def Obligations.StatusWordsAreExactlyTheLegalOnes : Prop :=
  ∀ st : Word,
    (legalStatus st ↔
      ¬ (st.getLsbD 0 = true ∧ st.getLsbD 1 = true) ∧
      ¬ (st.getLsbD 0 = true ∧ st.getLsbD 3 = true) ∧
      (st.getLsbD 3 = true ↔ st.extractLsb' 4 3 = 7) ∧
      (st.extractLsb' 4 3 ≠ 0 ↔ st.getLsbD 1 = true) ∧
      (st.extractLsb' 4 3 = 3 → st.extractLsb' 8 5 = 31 ∧ st.extractLsb' 13 3 = 7) ∧
      (st.extractLsb' 4 3 ≠ 3 → st.extractLsb' 8 5 = 0 ∧ st.extractLsb' 13 3 = 0) ∧
      st.extractLsb' 4 3 ≠ 6 ∧
      st.getLsbD 2 = false ∧ st.getLsbD 7 = false ∧ st.extractLsb' 16 16 = 0) ∧
    (legalStatus st → statusRead st = st)

/-! ## The host's accesses -/

/-- spec/20 R56: a read at a word offset answers the word of the window's map (R50) and changes nothing else; the reserved bits of
`STATUS` read 0 (spec/10 R26). -/
def Obligations.HostReadAnswersTheWindow : Prop :=
  ∀ (s : State) (off : Nat) (rest : List HostStep), s.power = .ready → off < 128 → off % 4 = 0 →
    s.host = .access ⟨.read, off, 4⟩ :: rest →
    step s = .next { s with
      host := rest
      replies := s.replies ++
        [if off = 4 then s.status &&& 0x0000FF7B
         else if off < 0x20 then 0
         else if off < 0x40 then s.opa.extractLsb' (8 * (off - 0x20)) 32
         else if off < 0x60 then s.opb.extractLsb' (8 * (off - 0x40)) 32
         else s.res.extractLsb' (8 * (off - 0x60)) 32] }

/-- spec/20 R55, the operand registers in phase `IDLE`: the word at the offset is replaced, the other seven and everything else stay. -/
def Obligations.HostWriteReplacesAnOperandWord : Prop :=
  ∀ (s : State) (k : Fin 8) (w : Word) (rest : List HostStep), s.power = .ready → phase s = .idle →
    (s.host = .access ⟨.write w, 0x20 + 4 * k.val, 4⟩ :: rest →
      ∃ t, step s = .next t ∧
        (∀ j : Fin 8, t.opa.extractLsb' (32 * j.val) 32 = if j = k then w else s.opa.extractLsb' (32 * j.val) 32) ∧
        t.opb = s.opb ∧ t.res = s.res ∧ t.status = s.status ∧ t.cmdr = s.cmdr ∧ t.power = s.power ∧
        t.losses = s.losses ∧ t.replies = s.replies ∧ t.host = rest) ∧
    (s.host = .access ⟨.write w, 0x40 + 4 * k.val, 4⟩ :: rest →
      ∃ t, step s = .next t ∧
        (∀ j : Fin 8, t.opb.extractLsb' (32 * j.val) 32 = if j = k then w else s.opb.extractLsb' (32 * j.val) 32) ∧
        t.opa = s.opa ∧ t.res = s.res ∧ t.status = s.status ∧ t.cmdr = s.cmdr ∧ t.power = s.power ∧
        t.losses = s.losses ∧ t.replies = s.replies ∧ t.host = rest)

/-- spec/20 R55, spec/40 R104, spec/60 R215: a write outside phase `IDLE`, and in any phase a write to `STATUS`, a reserved word or
`RES`, is dropped: the schedule moves on and nothing else changes. -/
def Obligations.IgnoredWritesChangeNothing : Prop :=
  ∀ (s : State) (off : Nat) (w : Word) (rest : List HostStep), s.power = .ready → off < 128 → off % 4 = 0 →
    (phase s ≠ .idle ∨ (4 ≤ off ∧ off < 0x20) ∨ 0x60 ≤ off) →
    s.host = .access ⟨.write w, off, 4⟩ :: rest →
    step s = .next { s with host := rest }

/-- spec/40 R103: issue latches the word unexamined, clears `RES` and the outcome, sets `BUSY`, and leaves the operands and `FAULT`. -/
def Obligations.IssueLatchesTheCommand : Prop :=
  ∀ (s : State) (w : Word) (rest : List HostStep), s.power = .ready → phase s = .idle →
    s.host = .access ⟨.write w, 0, 4⟩ :: rest →
    ∃ t, step s = .next t ∧ t.cmdr = w ∧ t.res = 0 ∧ statusIssued s.status t.status ∧
      (legalStatus s.status → t.status = 0x00000001) ∧ phase t = .busy ∧
      t.opa = s.opa ∧ t.opb = s.opb ∧ t.power = s.power ∧ t.losses = s.losses ∧ t.replies = s.replies ∧ t.host = rest

/-- spec/20 R54: inside the window exactly the aligned 32-bit accesses are accepted; every other one is a refusal of the step. -/
def Obligations.OnlyAlignedWordAccessesAreAccepted : Prop :=
  ∀ (s : State) (a : Access) (rest : List HostStep), s.power = .ready → a.off < 128 → s.host = .access a :: rest →
    ((∃ t, step s = .next t) ↔ a.width = 4 ∧ a.off % 4 = 0) ∧
    (¬ (a.width = 4 ∧ a.off % 4 = 0) → step s = .refused .badAccess)

/-- spec/70 R232, spec/93 U7, and log entry 6: a power loss leaves the block unreset; an unreset block refuses every access to its
window, its engine does nothing, and only a reset makes it ready. -/
def Obligations.PowerLossNeedsAReset : Prop :=
  (∀ (s : State) (rest : List HostStep), s.host = .powerLoss :: rest →
    ∃ t, step s = .next t ∧ t.power = .unreset ∧ t.host = rest ∧ t.replies = s.replies) ∧
  (∀ (s : State) (a : Access) (rest : List HostStep), s.power = .unreset → a.off < 128 → s.host = .access a :: rest →
    step s = .refused .beforeReset) ∧
  (∀ s t : State, s.power = .unreset → step s = .next t → t.power = .ready →
    ∃ d rest, s.host = .reset d :: rest)

/-- The model's choice (log entry 5): a schedule entry outside the window, which never reaches the block (spec/20 R51), stops the
model with a fault of its own name. An access at a bus address outside the window is no entry of a schedule at all. -/
def Obligations.AccessOutsideTheWindowStops : Prop :=
  (∀ (s : State) (a : Access) (rest : List HostStep), 128 ≤ a.off → s.host = .access a :: rest →
    step s = .fault .outsideWindow) ∧
  (∀ (addr width : Nat) (k : AccessKind), (addr < base ∨ base + 128 ≤ addr) → busAccess addr k width = [])

/-! ## The engine -/

/-- When the engine's turn comes in phase `BUSY` and `CMDR` decodes to a command, the step is that command's meaning: with nothing
scheduled on the state itself (log entry 2), at an `ENGINE` mark on the state past the mark (spec/40 R105, R106). -/
def Obligations.StepRunsTheDecodedCommand : Prop :=
  ∀ (s : State) (i : Instr), s.power = .ready → phase s = .busy → decode s.cmdr = .ok i → i.wf = true →
    (s.host = [] → step s = exec i s) ∧
    (∀ rest, s.host = .engine :: rest → step s = exec i { s with host := rest })

/-- The model's way to place a command (log entry 18): the next step after `withFetchWord` runs the command of the word. -/
def Obligations.LoadedWordRunsNext : Prop :=
  ∀ (s : State) (i : Instr),
    decodeTableWord 32 (encode i).toNat = some i ∧
    step (s.withFetchWord 32 (encode i).toNat) = exec i (s.withFetchWord 32 (encode i).toNat)

/-- spec/46 R202: a word in `CMDR` that is none of the five completes with `ERR_ILLEGAL`, `RES = 0`, operands unchanged, phase `IDLE`. -/
def Obligations.IllegalWordCompletes : Prop :=
  ∀ (s : State) (rest : List HostStep), s.power = .ready → phase s = .busy →
    s.host = .engine :: rest →
    s.cmdr ≠ 1 → s.cmdr ≠ 2 → s.cmdr ≠ 3 → s.cmdr ≠ 4 → s.cmdr ≠ 5 →
    ∃ t, step s = .next t ∧ t.res = 0 ∧ statusCompleted s.status t.status 5 0 0 ∧ sameButResult { s with host := rest } t ∧
      phase t = .idle ∧ (s.status = 0x00000001 → t.status = 0x00000052)

/-- The model's choice (log entry 2), for the fairness of spec/70 R241: an empty schedule is an engine point. -/
def Obligations.EmptyScheduleIsAnEnginePoint : Prop :=
  ∀ s : State, s.host = [] → step s = step { s with host := [.engine] }

/-- spec/40 R101, R105 (the idle step and the skipped mark are the model's, log entries 2 and 3): outside phase `BUSY` the engine
changes nothing. -/
def Obligations.EngineActsOnlyInBusy : Prop :=
  ∀ s : State, ¬ (s.power = .ready ∧ phase s = .busy) →
    (s.host = [] → step s = .next s) ∧
    (∀ rest, s.host = .engine :: rest → step s = .next { s with host := rest })

/-- spec/20 R62, spec/40 R102, spec/70 R236, R237: no sequence of accesses between issue and completion changes a register of the
block, so the completion step uses the operands of the issue. -/
def Obligations.BusyAccessesChangeNoRegister : Prop :=
  ∀ (accs : List Access) (rest : List HostStep) (s : State), s.power = .ready → phase s = .busy →
    (∀ a ∈ accs, a.wf = true) → s.host = accs.map .access ++ rest →
    ∃ t, Sys2Proof.core.run accs.length s = .next t ∧ sameRegisters s t ∧ t.host = rest

/-- spec/60 R215: phase `FAULT` is absorbing: no sequence of accesses and engine points changes a register of the block. -/
def Obligations.FaultPhaseIsAbsorbing : Prop :=
  ∀ (sched rest : List HostStep) (s : State), s.power = .ready → phase s = .fault →
    (∀ h ∈ sched, h = .engine ∨ ∃ a : Access, h = .access a ∧ a.wf = true) → s.host = sched ++ rest →
    ∃ t, Sys2Proof.core.run sched.length s = .next t ∧ sameRegisters s t ∧ t.host = rest

/-- spec/40 R107: at every completion step, an `ENGINE` mark or the engine's turn on an empty schedule (log entry 2), the same
`CMDR`, `OPA` and `OPB` give the same `RES` and the same `STATUS`, whatever else differs, the rest of the schedule included. -/
def Obligations.ResultDependsOnCommandAndOperandsOnly : Prop :=
  ∀ s s' t : State, s.power = .ready → s'.power = .ready → s.status = 0x00000001 → s'.status = 0x00000001 →
    (s.host = [] ∨ ∃ rest, s.host = .engine :: rest) → (s'.host = [] ∨ ∃ rest', s'.host = .engine :: rest') →
    s'.cmdr = s.cmdr → s'.opa = s.opa → s'.opb = s.opb →
    step s = .next t → ∃ t', step s' = .next t' ∧ sameRegisters t t'

/-- spec/10 R34, its last sentence: while `BUSY`, `RES` reads 0 and `STATUS` reads 0x00000001, whatever the operands are. -/
def Obligations.BusyShowsNothingOfTheOperands : Prop :=
  ∀ (s : State) (off : Nat) (rest : List HostStep), Inv s → s.power = .ready → phase s = .busy →
    off < 128 → off % 4 = 0 → (off < 0x20 ∨ 0x60 ≤ off) → s.host = .access ⟨.read, off, 4⟩ :: rest →
    step s = .next { s with host := rest, replies := s.replies ++ [if off = 4 then 0x00000001 else 0] }

/-- spec/40 R109: the only sequencing is `IDLE → BUSY` at issue, `BUSY → IDLE` or `BUSY → FAULT` at completion, the latter for
`COMPRESS` alone, and any phase `→ IDLE` at reset. -/
def Obligations.PhaseChangesOnlyAsSequenced : Prop :=
  ∀ s t : State, s.power = .ready → t.power = .ready → step s = .next t →
    (phase s = .idle → phase t = .idle ∨
      (phase t = .busy ∧ ∃ w rest, s.host = .access ⟨.write w, 0, 4⟩ :: rest)) ∧
    (phase s = .busy →
      (phase t = .busy ∧ ∃ a rest, s.host = .access a :: rest) ∨
      (phase t = .idle ∧ (s.host = [] ∨ (∃ rest, s.host = .engine :: rest) ∨ ∃ d rest, s.host = .reset d :: rest)) ∨
      (phase t = .fault ∧ s.cmdr = 3 ∧ (s.host = [] ∨ ∃ rest, s.host = .engine :: rest))) ∧
    (phase s = .fault → phase t = .fault ∨ (phase t = .idle ∧ ∃ d rest, s.host = .reset d :: rest))

/-- spec/10 R20, R21, R22, spec/46 R201: an operand register changes only at a host write of one of its words in phase `IDLE`, at
the completion of `ERASE` and at reset; `RES` changes only at issue, at completion and at reset. -/
def Obligations.RegistersChangeOnlyAsStated : Prop :=
  ∀ s t : State, s.power = .ready → t.power = .ready → step s = .next t →
    (t.opa ≠ s.opa →
      (phase s = .idle ∧ ∃ (k : Fin 8) (w : Word) (rest : List HostStep),
        s.host = .access ⟨.write w, 0x20 + 4 * k.val, 4⟩ :: rest) ∨
      (phase s = .busy ∧ s.cmdr = 5 ∧ (s.host = [] ∨ ∃ rest, s.host = .engine :: rest)) ∨
      (∃ d rest, s.host = .reset d :: rest)) ∧
    (t.opb ≠ s.opb →
      (phase s = .idle ∧ ∃ (k : Fin 8) (w : Word) (rest : List HostStep),
        s.host = .access ⟨.write w, 0x40 + 4 * k.val, 4⟩ :: rest) ∨
      (phase s = .busy ∧ s.cmdr = 5 ∧ (s.host = [] ∨ ∃ rest, s.host = .engine :: rest)) ∨
      (∃ d rest, s.host = .reset d :: rest)) ∧
    (t.res ≠ s.res →
      (phase s = .idle ∧ ∃ w rest, s.host = .access ⟨.write w, 0, 4⟩ :: rest) ∨
      (phase s = .busy ∧ (s.host = [] ∨ ∃ rest, s.host = .engine :: rest)) ∨
      (∃ d rest, s.host = .reset d :: rest))

/-! ## All commands -/

/-- spec/60 R211: the status words in which each command can end, and no others; an illegal word ends in `ERR_ILLEGAL` alone. -/
def Obligations.OutcomesOfEachCommand : Prop :=
  (∀ (i : Instr) (c : Word),
    (∃ s t : State, s.status = 0x00000001 ∧ exec i s = .next t ∧ t.status = c) ↔
      match i with
      | .sqrtRatio => c = 0x00000012 ∨ c = 0x00000022 ∨ c = 0x00000042
      | .decompress => c = 0x00000012 ∨ c = 0x00000022 ∨ c = 0x00000042
      | .compress => c = 0x00000012 ∨ c = 0x00000042 ∨ c = 0x0000007A
      | .legacyConvert => c = 0x00000012 ∨ c = 0x0000FF32 ∨ c = 0x00000042
      | .erase => c = 0x00000012) ∧
  (∀ c : Word,
    (∃ s t : State, s.power = .ready ∧ s.status = 0x00000001 ∧ s.host = [.engine] ∧ (∀ i, s.cmdr ≠ encode i) ∧
      step s = .next t ∧ t.status = c) ↔ c = 0x00000052)

/-- spec/10 R20, R21, spec/40 R106: every command answers a next state from every state, and all but `ERASE` leave everything but
`RES` and `STATUS` as it was. -/
def Obligations.OnlyEraseWritesTheOperands : Prop :=
  ∀ (i : Instr) (s : State), ∃ t, exec i s = .next t ∧ t.cmdr = s.cmdr ∧ t.power = s.power ∧ t.losses = s.losses ∧
    t.host = s.host ∧ t.replies = s.replies ∧ (i ≠ .erase → sameButResult s t)

/-- spec/10 R21: no command but `SQRT_RATIO` reads `OPB`. -/
def Obligations.OnlySqrtRatioReadsOpb : Prop :=
  ∀ (i : Instr) (s t : State) (b : Buf), i ≠ .sqrtRatio → exec i s = .next t →
    ∃ t', exec i { s with opb := b } = .next t' ∧ t'.opa = t.opa ∧ t'.res = t.res ∧ t'.status = t.status ∧ t'.cmdr = t.cmdr

/-! ## SQRT_RATIO -/

/-- spec/42 R151: the candidate root is `(u·v³)·(u·v⁷)^((P−5)/8)` in the field. -/
def Obligations.CandidateRootIsTheFormula : Prop :=
  ∀ u v : Nat, rootCandidate u v = u * v ^ 3 * (u * v ^ 7) ^ EXP % P

/-- spec/42 R159: an operand at or above `P` gives `ERR_RANGE` and `RES = 0`. -/
def Obligations.SqrtRatioRejectsNonCanonicalOperands : Prop :=
  ∀ s : State, (P ≤ s.opa.toNat ∨ P ≤ s.opb.toNat) →
    ∃ t, exec .sqrtRatio s = .next t ∧ t.res = 0 ∧ statusCompleted s.status t.status 4 0 0 ∧ sameButResult s t ∧
      (s.status = 0x00000001 → t.status = 0x00000042)

/-- spec/42 R157, R158, R160: on canonical operands the result is canonical and even; the outcome is `OK` exactly when `v·x² = u`
has a solution, and then `RES` is one; else it is `NEGATIVE`, and `v·RES² = SQRT_M1·u` when `v ≠ 0`, `RES = 0` when `v = 0`. -/
def Obligations.SqrtRatioFindsExactlyTheRoots : Prop :=
  ∀ s : State, s.opa.toNat < P → s.opb.toNat < P →
    ∃ t, exec .sqrtRatio s = .next t ∧ sameButResult s t ∧ t.res.toNat < P ∧ t.res.toNat % 2 = 0 ∧
      (s.opb = 0 → t.res = 0) ∧
      ((∃ x : Nat, s.opb.toNat * x ^ 2 % P = s.opa.toNat) →
        s.opb.toNat * t.res.toNat ^ 2 % P = s.opa.toNat ∧ statusCompleted s.status t.status 1 0 0 ∧
        (s.status = 0x00000001 → t.status = 0x00000012)) ∧
      ((¬ ∃ x : Nat, s.opb.toNat * x ^ 2 % P = s.opa.toNat) →
        (s.opb ≠ 0 → s.opb.toNat * t.res.toNat ^ 2 % P = blockSqrtM1 * s.opa.toNat % P) ∧
        statusCompleted s.status t.status 2 0 0 ∧ (s.status = 0x00000001 → t.status = 0x00000022))

/-- spec/42 R154, R155: in the third branch the candidate is corrected and `found` stays clear, for either square root of −1. -/
def Obligations.ThirdBranchCorrectsWithoutFound : Prop :=
  ∀ i u v : Nat, rootOfMinusOne i → u < P → v < P → u ≠ 0 → rootCheck u v = fmul (fneg u) i →
    sqrtRatioWith i u v = (false, fabs (fmul i (rootCandidate u v)))

/-- spec/42 R160, spec/00 R9: which square root of −1 the implementation has shows in the found bit never, in a found root never,
and in every root that is not found with `v ≠ 0`. -/
def Obligations.RootChoiceShowsOnlyWhenNotFound : Prop :=
  ∀ i j u v : Nat, rootOfMinusOne i → rootOfMinusOne j → i ≠ j → u < P → v < P →
    (sqrtRatioWith i u v).1 = (sqrtRatioWith j u v).1 ∧
    ((sqrtRatioWith i u v).1 = true → (sqrtRatioWith i u v).2 = (sqrtRatioWith j u v).2) ∧
    ((sqrtRatioWith i u v).1 = false → v ≠ 0 → (sqrtRatioWith i u v).2 ≠ (sqrtRatioWith j u v).2)

/-- spec/00 R9: `SQRT_M1` is a square root of −1 and there are exactly two, it and `P − SQRT_M1`. -/
def Obligations.ExactlyTwoRootsOfMinusOne : Prop :=
  rootOfMinusOne blockSqrtM1 ∧ rootOfMinusOne (P - blockSqrtM1) ∧
  ∀ x : Nat, rootOfMinusOne x → x = blockSqrtM1 ∨ x = P - blockSqrtM1

/-! ## DECOMPRESS -/

/-- spec/43 R171: a magnitude at or above `P` gives `ERR_RANGE` and `RES = 0`, whatever the sign bit is. -/
def Obligations.DecompressRejectsLargeMagnitudes : Prop :=
  ∀ s : State, P ≤ lowPart s.opa →
    ∃ t, exec .decompress s = .next t ∧ t.res = 0 ∧ statusCompleted s.status t.status 4 0 0 ∧ sameButResult s t ∧
      (s.status = 0x00000001 → t.status = 0x00000042)

/-- spec/43 R170, R172, R173, R175: with `x` the magnitude of `OPA`, if some `y` makes a point of the curve then the outcome is `OK`
and `RES` holds such a canonical `y`, of the parity the sign bit asks for unless it is 0, with the parity of `x` in bit 255; if
none does, the outcome is `NEGATIVE` and `RES` is 0. -/
def Obligations.DecompressFindsThePoint : Prop :=
  ∀ s : State, lowPart s.opa < P →
    ∃ t, exec .decompress s = .next t ∧ sameButResult s t ∧
      ((∃ y : Nat, onCurve (lowPart s.opa) y) →
        onCurve (lowPart s.opa) (lowPart t.res) ∧ lowPart t.res < P ∧ (topBit t.res ↔ lowPart s.opa % 2 = 1) ∧
        (lowPart t.res ≠ 0 → (lowPart t.res % 2 = 1 ↔ topBit s.opa)) ∧
        statusCompleted s.status t.status 1 0 0 ∧ (s.status = 0x00000001 → t.status = 0x00000012)) ∧
      ((¬ ∃ y : Nat, onCurve (lowPart s.opa) y) →
        t.res = 0 ∧ statusCompleted s.status t.status 2 0 0 ∧ (s.status = 0x00000001 → t.status = 0x00000022))

/-- spec/43 R174(a), spec/44 R186(a): the denominator that `DECOMPRESS` or `COMPRESS` hands to `sqrt_ratio` is `d·x² − 1` or
`d·y² + 1`, which is never 0, whichever square root `i` of −1 they are given. -/
def Obligations.DenominatorsAreNeverZero : Prop :=
  (∀ i x : Nat, ∃ v, v = fsub (fmul D (fsq x)) 1 ∧ v ≠ 0 ∧
    decompressRoot i x = sqrtRatioWith i (fsub (fneg (fsq x)) 1) v) ∧
  (∀ i y : Nat, ∃ v, v = fadd (fmul D (fsq y)) 1 ∧ v ≠ 0 ∧
    compressRoot i y = sqrtRatioWith i (fsub (fsq y) 1) v)

/-! ## COMPRESS -/

/-- spec/44 R183: a magnitude at or above `P` gives `ERR_RANGE` and `RES = 0`, and no fault. -/
def Obligations.CompressRejectsLargeMagnitudes : Prop :=
  ∀ s : State, P ≤ lowPart s.opa →
    ∃ t, exec .compress s = .next t ∧ t.res = 0 ∧ statusCompleted s.status t.status 4 0 0 ∧ sameButResult s t ∧
      (s.status = 0x00000001 → t.status = 0x00000042 ∧ phase t = .idle)

/-- spec/44 R180, R181, R182: with `y` the magnitude of `OPA` the Y coordinate of a point of the curve, the outcome is `OK` and `RES`
holds a canonical `x` of such a point, of the parity the sign bit asks for unless it is 0, with the parity of `y` in bit 255. -/
def Obligations.CompressFindsThePoint : Prop :=
  ∀ s : State, lowPart s.opa < P → (∃ x : Nat, onCurve x (lowPart s.opa)) →
    ∃ t, exec .compress s = .next t ∧ sameButResult s t ∧
      onCurve (lowPart t.res) (lowPart s.opa) ∧ lowPart t.res < P ∧ (topBit t.res ↔ lowPart s.opa % 2 = 1) ∧
      (lowPart t.res ≠ 0 → (lowPart t.res % 2 = 1 ↔ topBit s.opa)) ∧
      statusCompleted s.status t.status 1 0 0 ∧ (s.status = 0x00000001 → t.status = 0x00000012)

/-- spec/44 R184, spec/60 R214: when `OPA` holds the Y coordinate of no point of the curve, `COMPRESS` takes the fault: exactly the
writes of fault entry, everything else as it was, phase `FAULT`. -/
def Obligations.CompressFaultsOffTheCurve : Prop :=
  ∀ s : State, lowPart s.opa < P → (¬ ∃ x : Nat, onCurve x (lowPart s.opa)) →
    ∃ t, exec .compress s = .next t ∧ t.res = 0 ∧ statusFaulted s.status t.status ∧ sameButResult s t ∧
      phase t = .fault ∧ (s.status = 0x00000001 → t.status = 0x0000007A)

/-- spec/44 R187: compressing the encoding of any point of the curve and decompressing the result gives that encoding back. -/
def Obligations.CompressThenDecompressRoundTrip : Prop :=
  ∀ (s : State) (x y : Nat), x < P → y < P → onCurve x y → s.opa.toNat = y + x % 2 * 2 ^ 255 →
    ∃ t, exec .compress s = .next t ∧ t.status.extractLsb' 4 3 = 1 ∧ t.res.toNat = x + y % 2 * 2 ^ 255 ∧
      ∀ s' : State, s'.opa = t.res →
        ∃ t', exec .decompress s' = .next t' ∧ t'.status.extractLsb' 4 3 = 1 ∧ t'.res = s.opa

/-- spec/43 R177: compressing what `DECOMPRESS` delivered gives its operand back, except where `x² = −1` and the sign bit is set:
there the sign bit is lost. -/
def Obligations.DecompressThenCompressRoundTrip : Prop :=
  ∀ s t : State, exec .decompress s = .next t → t.status.extractLsb' 4 3 = 1 →
    ∀ s' : State, s'.opa = t.res →
      ∃ t', exec .compress s' = .next t' ∧ t'.status.extractLsb' 4 3 = 1 ∧
        (¬ (rootOfMinusOne (lowPart s.opa) ∧ topBit s.opa) → t'.res = s.opa) ∧
        (rootOfMinusOne (lowPart s.opa) ∧ topBit s.opa → t'.res.toNat = lowPart s.opa)

/-! ## LEGACY_CONVERT -/

/-- spec/45 R190, command word 0x00000004: the flag bit is rejected first, at byte 31, bit 7; then a magnitude above `P − 1`; else `RES` is the product of the
magnitude and `ISO_FACTOR`, its bit 255 clear. -/
def Obligations.LegacyConvertResult : Prop :=
  decode 0x00000004 = .ok .legacyConvert ∧
  ∀ s : State, ∃ t, exec .legacyConvert s = .next t ∧ sameButResult s t ∧
    (topBit s.opa → t.res = 0 ∧ statusCompleted s.status t.status 3 31 7 ∧
      (s.status = 0x00000001 → t.status = 0x0000FF32)) ∧
    (¬ topBit s.opa → P - 1 < s.opa.toNat → t.res = 0 ∧ statusCompleted s.status t.status 4 0 0 ∧
      (s.status = 0x00000001 → t.status = 0x00000042)) ∧
    (s.opa.toNat ≤ P - 1 → t.res.toNat = s.opa.toNat * blockIsoFactor % P ∧ ¬ topBit t.res ∧
      statusCompleted s.status t.status 1 0 0 ∧ (s.status = 0x00000001 → t.status = 0x00000012))

/-- spec/45 R195: 0 goes to 0, `P − 1` to `P − ISO_FACTOR`, and the accepted operands go one to one onto the canonical results. -/
def Obligations.LegacyConvertIsABijection : Prop :=
  (∀ s : State, s.opa = 0 → ∃ t, exec .legacyConvert s = .next t ∧ t.res = 0 ∧ t.status.extractLsb' 4 3 = 1) ∧
  (∀ s : State, s.opa.toNat = P - 1 →
    ∃ t, exec .legacyConvert s = .next t ∧ t.res.toNat = P - blockIsoFactor ∧ t.status.extractLsb' 4 3 = 1) ∧
  (∀ s s' t t' : State, s.opa.toNat < P → s'.opa.toNat < P → exec .legacyConvert s = .next t →
    exec .legacyConvert s' = .next t' → t.res = t'.res → s.opa = s'.opa) ∧
  (∀ r : Nat, r < P → ∃ s t : State, s.opa.toNat < P ∧ exec .legacyConvert s = .next t ∧ t.res.toNat = r)

/-! ## ERASE -/

/-- spec/46 R200: `ERASE`, command word 0x00000005, puts the identity encoding into the three data registers and completes with `OK`. -/
def Obligations.EraseWritesTheIdentityEncoding : Prop :=
  decode 0x00000005 = .ok .erase ∧
  ∀ s : State, ∃ t, exec .erase s = .next t ∧ t.opa = 1 ∧ t.opb = 1 ∧ t.res = 1 ∧
    statusCompleted s.status t.status 1 0 0 ∧ (s.status = 0x00000001 → t.status = 0x00000012) ∧
    t.cmdr = s.cmdr ∧ t.power = s.power ∧ t.losses = s.losses ∧ t.host = s.host ∧ t.replies = s.replies

/-- spec/46 R201: after `ERASE` nothing of the data registers' earlier contents is left: two blocks that differ in them alone agree. -/
def Obligations.EraseForgetsTheDataRegisters : Prop :=
  ∀ s s' t t' : State, s'.status = s.status → s'.cmdr = s.cmdr → s'.power = s.power →
    exec .erase s = .next t → exec .erase s' = .next t' → sameRegisters t t'

/-- spec/46 R203: what each command gives on the registers that `ERASE` leaves. -/
def Obligations.CommandsOnErasedRegisters : Prop :=
  ∀ s : State, s.opa = 1 → s.opb = 1 →
    (∃ t, exec .sqrtRatio s = .next t ∧ t.res.toNat = P - 1 ∧ t.status.extractLsb' 4 3 = 1) ∧
    (∃ t, exec .decompress s = .next t ∧ t.res = 0 ∧ t.status.extractLsb' 4 3 = 2) ∧
    (∃ t, exec .compress s = .next t ∧ t.res.toNat = 2 ^ 255 ∧ t.status.extractLsb' 4 3 = 1) ∧
    (∃ t, exec .legacyConvert s = .next t ∧ t.res.toNat = blockIsoFactor ∧ t.status.extractLsb' 4 3 = 1)

/-! ## Field primitives -/

/-- spec/41 R137: the absolute value is even, is the element or its negation, and is the same for both. -/
def Obligations.NonNegativeRepresentative : Prop :=
  ∀ a : Nat, a < P → fabs a < P ∧ fabs a % 2 = 0 ∧ isneg (fabs a) = false ∧ fabs (fneg a) = fabs a ∧
    (fabs a = a ∨ fabs a + a = P)

/-- spec/41 R131: the inverse of a field element other than 0 is `fpow(a, P − 2)`, the one element whose product with it is 1. That
`finv` has no value at 0 is the model's choice (log entry 20): the source does not define it. -/
def Obligations.InverseIsTheUniqueInverse : Prop :=
  finv 0 = none ∧
  ∀ a : Nat, 0 < a → a < P →
    ∃ b, finv a = some b ∧ b = a ^ (P - 2) % P ∧ b < P ∧ fmul a b = 1 ∧ ∀ c : Nat, c < P → fmul a c = 1 → c = b
end

