-- ==== Sys2Proof/Laws/Bits.lean ====
section
/-! SUPPORT. What slices and slice writes do, bit by bit and slice by slice (spec/00 R12, spec/20 R52). -/
namespace Sys2Proof.Laws

open Sys2Proof.Machine

theorem getBits_getLsbD {n : Nat} (x : BitVec n) (lo len i : Nat) :
    (getBits x lo len).getLsbD i = (decide (i < len) && x.getLsbD (lo + i)) := by
  simp [getBits]

theorem setBits_getLsbD {n len : Nat} (x : BitVec n) (lo : Nat) (v : BitVec len) (i : Nat) (hi : i < n) :
    (setBits x lo v).getLsbD i = if lo ≤ i ∧ i < lo + len then v.getLsbD (i - lo) else x.getLsbD i := by
  by_cases hlo : lo ≤ i
  · have hnlo : ¬ i < lo := by omega
    by_cases hhi : i < lo + len
    · have hlen : i - lo < len := by omega
      simp [setBits, hi, hnlo, hlen, hlo, hhi]
    · have hlen : ¬ i - lo < len := by omega
      have hv : v.getLsbD (i - lo) = false := BitVec.getLsbD_of_ge _ _ (by omega)
      simp [setBits, hi, hnlo, hlen, hhi, hv]
  · have hnlo : i < lo := by omega
    simp [setBits, hi, hnlo, hlo]

/-- A slice reads back as it was written. -/
theorem getBits_setBits_same {n len : Nat} (x : BitVec n) (lo : Nat) (v : BitVec len) (h : lo + len ≤ n) :
    getBits (setBits x lo v) lo len = v := by
  apply BitVec.eq_of_getLsbD_eq
  intro i hi
  rw [getBits_getLsbD, setBits_getLsbD _ _ _ _ (by omega)]
  simp [hi]

/-- Writing one slice leaves a slice that does not overlap it alone. -/
theorem getBits_setBits_disjoint {n len : Nat} (x : BitVec n) (lo : Nat) (v : BitVec len) (lo' len' : Nat)
    (hn : lo' + len' ≤ n) (h : lo' + len' ≤ lo ∨ lo + len ≤ lo') :
    getBits (setBits x lo v) lo' len' = getBits x lo' len' := by
  apply BitVec.eq_of_getLsbD_eq
  intro i hi
  rw [getBits_getLsbD, getBits_getLsbD, setBits_getLsbD _ _ _ _ (by omega), if_neg (by omega)]

@[simp] theorem getWord_setWord_same (b : Buf) (k : Fin 8) (w : Word) : getWord (setWord b k w) k = w :=
  getBits_setBits_same b (32 * k.val) w (by omega)

theorem getWord_setWord_ne (b : Buf) (k j : Fin 8) (w : Word) (h : j ≠ k) :
    getWord (setWord b k w) j = getWord b j :=
  getBits_setBits_disjoint b (32 * k.val) w (32 * j.val) 32 (by omega)
    (by have : j.val ≠ k.val := fun e => h (Fin.ext e)
        omega)

/-- Two buffers with the same eight words are the same (spec/20 R52). -/
theorem buf_eq_of_getWord_eq (a b : Buf) (h : ∀ k, getWord a k = getWord b k) : a = b := by
  apply BitVec.eq_of_getLsbD_eq
  intro i hi
  have hk := congrArg (fun w : Word => w.getLsbD (i % 32)) (h ⟨i / 32, by omega⟩)
  simp only [getWord, getBits_getLsbD] at hk
  have e : 32 * (i / 32) + i % 32 = i := by omega
  have l : i % 32 < 32 := by omega
  simpa [e, l] using hk

end Sys2Proof.Laws
end

