-- ==== Sys2Proof/Laws/Prime.lean ====
section
/-! SUPPORT. `P = 2^255 − 19` is a prime, by a chain of Lucas certificates that the kernel evaluates. -/
namespace Sys2Proof.Laws

open Sys2Proof.Config

/-- Square and multiply modulo `n`, on at most `fuel` bits of the exponent. -/
def powMod (n : Nat) : Nat → Nat → Nat → Nat
  | 0, _, _ => 1 % n
  | fuel + 1, a, e =>
    if e = 0 then 1 % n
    else if e % 2 = 1 then powMod n fuel a (e / 2) * powMod n fuel a (e / 2) % n * a % n
    else powMod n fuel a (e / 2) * powMod n fuel a (e / 2) % n

theorem powMod_eq (n a : Nat) : ∀ fuel e, e < 2 ^ fuel → powMod n fuel a e = a ^ e % n := by
  intro fuel
  induction fuel with
  | zero => intro e he; simp at he; simp [powMod, he]
  | succ fuel ih =>
    intro e he
    have hlt : e / 2 < 2 ^ fuel := by rw [pow_succ] at he; omega
    have hsplit : a ^ e = a ^ (e / 2) * a ^ (e / 2) * a ^ (e % 2) := by
      rw [← pow_add, ← pow_add]; congr 1; omega
    unfold powMod
    split
    · subst e; simp
    · rw [ih _ hlt, hsplit]
      split
      · rename_i h; rw [h, pow_one]
        simp [Nat.mul_mod]
      · have h : e % 2 = 0 := by omega
        rw [h, pow_zero, mul_one, Nat.mul_mod (a ^ (e / 2)) (a ^ (e / 2)), Nat.mul_mod]

/-- A Lucas certificate: `a` has order `n − 1`, and `l` lists the prime factors of `n − 1`. -/
theorem prime_of_certificate (n a : Nat) (l : List Nat) (hn : 1 < n ∧ n < 2 ^ 256) (hl : ∀ q ∈ l, q.Prime)
    (hprod : l.prod = n - 1) (hone : powMod n 256 a (n - 1) = 1)
    (hne : l.all (fun q => powMod n 256 a ((n - 1) / q) != 1) = true) : n.Prime := by
  have hpow : ∀ e, e ≤ n - 1 → powMod n 256 a e = a ^ e % n := fun e he => powMod_eq n a 256 e (by omega)
  have key : ∀ e, ((a : ZMod n) ^ e = 1) ↔ a ^ e % n = 1 := by
    intro e
    have h := ZMod.natCast_eq_natCast_iff (a ^ e) 1 n
    rw [Nat.ModEq, Nat.mod_eq_of_lt hn.1] at h
    simpa using h
  refine lucas_primality n a ((key _).2 ?_) ?_
  · rw [← hpow _ le_rfl]; exact hone
  · intro q hq hdvd h
    have hmem : q ∈ l := by
      rw [← hprod] at hdvd
      obtain ⟨x, hx, hqx⟩ := (Nat.Prime.prime hq).dvd_prod_iff.1 hdvd
      rwa [(Nat.prime_dvd_prime_iff_eq hq (hl x hx)).1 hqx]
    have := (List.all_eq_true.1 hne) q hmem
    rw [hpow _ (Nat.div_le_self _ _), (key _).1 h] at this
    simp at this

theorem prime_2773320623 : Nat.Prime 2773320623 :=
  prime_of_certificate _ 5 [2, 2437, 569003] (by norm_num) (by norm_num) (by norm_num) (by decide +kernel)
    (by decide +kernel)

theorem prime_72106336199 : Nat.Prime 72106336199 :=
  prime_of_certificate _ 7 [2, 13, 2773320623] (by norm_num)
    (by simp only [List.mem_cons, List.not_mem_nil, or_false, forall_eq_or_imp, forall_eq]
        exact ⟨by norm_num, by norm_num, prime_2773320623⟩)
    (by norm_num) (by decide +kernel) (by decide +kernel)

theorem prime_31757755568855353 : Nat.Prime 31757755568855353 :=
  prime_of_certificate _ 10 [2, 2, 2, 3, 31, 107, 223, 4153, 430751] (by norm_num) (by norm_num) (by norm_num)
    (by decide +kernel) (by decide +kernel)

theorem prime_1919519569386763 : Nat.Prime 1919519569386763 :=
  prime_of_certificate _ 2 [2, 3, 7, 19, 47, 47, 127, 8574133] (by norm_num) (by norm_num) (by norm_num)
    (by decide +kernel) (by decide +kernel)

theorem prime_75445702479781427272750846543864801 : Nat.Prime 75445702479781427272750846543864801 :=
  prime_of_certificate _ 7 [2, 2, 2, 2, 2, 3, 3, 5, 5, 75707, 72106336199, 1919519569386763] (by norm_num)
    (by simp only [List.mem_cons, List.not_mem_nil, or_false, forall_eq_or_imp, forall_eq]
        exact ⟨by norm_num, by norm_num, by norm_num, by norm_num, by norm_num, by norm_num, by norm_num, by norm_num,
          by norm_num, by norm_num, prime_72106336199, prime_1919519569386763⟩)
    (by norm_num) (by decide +kernel) (by decide +kernel)

theorem prime_cofactor : Nat.Prime 74058212732561358302231226437062788676166966415465897661863160754340907 :=
  prime_of_certificate _ 2
    [2, 3, 353, 57467, 132049, 1923133, 31757755568855353, 75445702479781427272750846543864801] (by norm_num)
    (by simp only [List.mem_cons, List.not_mem_nil, or_false, forall_eq_or_imp, forall_eq]
        exact ⟨by norm_num, by norm_num, by norm_num, by norm_num, by norm_num, by norm_num,
          prime_31757755568855353, prime_75445702479781427272750846543864801⟩)
    (by norm_num) (by decide +kernel) (by decide +kernel)

/-- The field prime is a prime (spec/00 R2, R7). -/
theorem prime_P : Nat.Prime P :=
  prime_of_certificate P 2
    [2, 2, 3, 65147, 74058212732561358302231226437062788676166966415465897661863160754340907] (by norm_num [P])
    (by simp only [List.mem_cons, List.not_mem_nil, or_false, forall_eq_or_imp, forall_eq]
        exact ⟨by norm_num, by norm_num, by norm_num, by norm_num, prime_cofactor⟩)
    (by norm_num [P]) (by decide +kernel) (by decide +kernel)

end Sys2Proof.Laws
end

