-- ==== Sys2Proof/Laws/Field.lean ====
section
/-! SUPPORT. The field primitives of spec/41: every result is canonical, each is the arithmetic of `ZMod P`, and the facts about
the constants that the command rules use. -/
namespace Sys2Proof.Laws

open Sys2Proof.Machine Sys2Proof.Config

theorem P_pos : 0 < P := by norm_num [P]

theorem P_odd : P % 2 = 1 := by norm_num [P]

theorem P_lt : P < 2 ^ 255 := by norm_num [P]

theorem fact_prime_P : Fact (Nat.Prime P) := ⟨prime_P⟩

/-! Every primitive is canonical (spec/41 R120). -/

theorem fadd_lt (a b : Nat) : fadd a b < P := Nat.mod_lt _ P_pos
theorem fneg_lt (a : Nat) : fneg a < P := Nat.mod_lt _ P_pos
theorem fmul_lt (a b : Nat) : fmul a b < P := Nat.mod_lt _ P_pos
theorem fsq_lt (a : Nat) : fsq a < P := fmul_lt a a
theorem fsub_lt (a b : Nat) (ha : a < P) : fsub a b < P := by
  unfold fsub; split <;> omega
theorem cneg_lt (c : Bool) (a : Nat) (ha : a < P) : cneg c a < P := by
  cases c
  · exact ha
  · exact fneg_lt a
theorem fabs_lt (a : Nat) (ha : a < P) : fabs a < P := cneg_lt _ a ha

/-- The canonical representative of a residue class. -/
theorem eq_of_cast_eq (a b : Nat) (ha : a < P) (hb : b < P) (h : (a : ZMod P) = (b : ZMod P)) : a = b := by
  have := (ZMod.natCast_eq_natCast_iff a b P).1 h
  rwa [Nat.ModEq, Nat.mod_eq_of_lt ha, Nat.mod_eq_of_lt hb] at this

theorem cast_eq_iff (a b : Nat) (ha : a < P) (hb : b < P) : (a : ZMod P) = (b : ZMod P) ↔ a = b :=
  ⟨eq_of_cast_eq a b ha hb, fun h => by rw [h]⟩

theorem cast_eq_zero_iff (a : Nat) (ha : a < P) : (a : ZMod P) = 0 ↔ a = 0 := by
  have := cast_eq_iff a 0 ha P_pos
  simpa using this

theorem two_ne_zero_field : (2 : ZMod P) ≠ 0 := by
  have h := (cast_eq_zero_iff 2 (by norm_num [P])).not.2 (by norm_num)
  simpa using h

/-- The only field element that is its own negation is 0. -/
theorem eq_zero_of_eq_neg (a : ZMod P) (h : a = -a) : a = 0 := by
  have := fact_prime_P
  have h2 : 2 * a = 0 := by linear_combination h
  exact (mul_eq_zero.1 h2).resolve_left two_ne_zero_field

/-- `feq` is equality in the field (spec/41 R133). -/
theorem feq_iff (a b : Nat) (ha : a < P) (hb : b < P) : feq a b = true ↔ (a : ZMod P) = (b : ZMod P) := by
  rw [cast_eq_iff a b ha hb, feq, beq_iff_eq]

/-! Each primitive is the arithmetic of the field. -/

theorem cast_fadd (a b : Nat) : ((fadd a b : Nat) : ZMod P) = (a : ZMod P) + (b : ZMod P) := by simp [fadd]
theorem cast_fmul (a b : Nat) : ((fmul a b : Nat) : ZMod P) = (a : ZMod P) * (b : ZMod P) := by simp [fmul]
theorem cast_fsq (a : Nat) : ((fsq a : Nat) : ZMod P) = (a : ZMod P) ^ 2 := by simp [fsq, cast_fmul, sq]
theorem cast_fneg (a : Nat) (ha : a ≤ P) : ((fneg a : Nat) : ZMod P) = -(a : ZMod P) := by
  simp [fneg, Nat.cast_sub ha]
theorem cast_fsub (a b : Nat) (hb : b ≤ P) : ((fsub a b : Nat) : ZMod P) = (a : ZMod P) - (b : ZMod P) := by
  unfold fsub
  split
  · rename_i h; exact Nat.cast_sub h
  · rename_i h
    rw [Nat.cast_sub (by omega)]
    simp
theorem cast_fcube (a : Nat) : ((fcube a : Nat) : ZMod P) = (a : ZMod P) ^ 3 := by
  simp only [fcube, cast_fmul, cast_fsq]; ring
theorem cast_fpow7 (a : Nat) : ((fpow7 a : Nat) : ZMod P) = (a : ZMod P) ^ 7 := by
  simp only [fpow7, cast_fmul, cast_fsq, cast_fcube]; ring

theorem fpowGo_lt : ∀ fuel a e, fpowGo fuel a e < P := by
  intro fuel a e
  have one_lt : 1 < P := by norm_num [P]
  cases fuel with
  | zero => exact one_lt
  | succ fuel =>
    unfold fpowGo
    split
    · exact one_lt
    · split
      · exact fmul_lt _ _
      · exact fsq_lt _

theorem cast_fpowGo (a : Nat) : ∀ fuel e, e < 2 ^ fuel → ((fpowGo fuel a e : Nat) : ZMod P) = (a : ZMod P) ^ e := by
  intro fuel
  induction fuel with
  | zero => intro e he; simp at he; simp [fpowGo, he]
  | succ fuel ih =>
    intro e he
    have hlt : e / 2 < 2 ^ fuel := by rw [pow_succ] at he; omega
    have hsplit : (a : ZMod P) ^ e = ((a : ZMod P) ^ (e / 2)) ^ 2 * (a : ZMod P) ^ (e % 2) := by
      rw [← pow_mul, ← pow_add]; congr 1; omega
    unfold fpowGo
    split
    · subst e; simp
    · split
      · rename_i h; rw [cast_fmul, cast_fsq, ih _ hlt, hsplit, h, pow_one]
      · have h : e % 2 = 0 := by omega
        rw [cast_fsq, ih _ hlt, hsplit, h, pow_zero, mul_one]

theorem cast_fpow (a e : Nat) : ((fpow a e : Nat) : ZMod P) = (a : ZMod P) ^ e :=
  cast_fpowGo a _ e Nat.lt_log2_self

theorem fpow_lt (a e : Nat) : fpow a e < P := fpowGo_lt _ a e

/-- `fpow` is the power modulo `P` (spec/41 R128). -/
theorem fpow_eq (a e : Nat) : fpow a e = a ^ e % P := by
  refine eq_of_cast_eq _ _ (fpow_lt a e) (Nat.mod_lt _ P_pos) ?_
  rw [cast_fpow, ZMod.natCast_mod, Nat.cast_pow]

/-- The absolute value is the element or its negation (spec/41 R137). -/
theorem fabs_cases (a : Nat) : (isneg a = true ∧ fabs a = fneg a) ∨ (isneg a = false ∧ fabs a = a) := by
  unfold fabs cneg sel
  cases h : isneg a <;> simp

theorem cast_fabs (a : Nat) (ha : a ≤ P) :
    ((fabs a : Nat) : ZMod P) = a ∨ ((fabs a : Nat) : ZMod P) = -(a : ZMod P) := by
  rcases fabs_cases a with ⟨-, h⟩ | ⟨-, h⟩ <;> rw [h]
  · exact .inr (cast_fneg a ha)
  · exact .inl rfl

/-- The fixed square root of −1 is one (spec/00 R9), whichever of the two it is. -/
theorem blockSqrtM1_spec : blockSqrtM1 < P ∧ blockSqrtM1 * blockSqrtM1 % P = P - 1 := by
  unfold blockSqrtM1 Config.sqrtM1
  cases sqrtM1Negated <;> decide +kernel

theorem cast_P_sub_one : ((P - 1 : Nat) : ZMod P) = -1 := by
  rw [Nat.cast_sub P_pos]; simp

/-- A square root of −1 among the canonical representatives squares to −1 in the field. -/
theorem cast_root_sq (i : Nat) (hi : i * i % P = P - 1) : (i : ZMod P) ^ 2 = -1 := by
  have h := congrArg (fun n : Nat => (n : ZMod P)) hi
  simp only [ZMod.natCast_mod, Nat.cast_mul, cast_P_sub_one] at h
  rw [sq, h]

/-- `ISO_FACTOR` is a field element other than 0 (spec/00 R10). -/
theorem blockIsoFactor_range : 1 ≤ blockIsoFactor ∧ blockIsoFactor < P := by
  unfold blockIsoFactor Config.isoFactor
  have : 0 < P - 1 := by norm_num [P]
  have := Nat.mod_lt isoSeed this
  omega

/-- Euler's criterion, the power evaluated by `fpow`: a field element whose power is −1 is no square. -/
theorem not_isSquare_of_fpow (a : Nat) (ha : a < P) (h0 : a ≠ 0) (h : fpow a (P / 2) = P - 1) :
    ¬ IsSquare (a : ZMod P) := by
  have := fact_prime_P
  rw [ZMod.euler_criterion P (by rwa [Ne, cast_eq_zero_iff a ha]), ← cast_fpow, h, cast_P_sub_one]
  intro h1
  have h2 : ((P - 1 : Nat) : ZMod P) = ((1 : Nat) : ZMod P) := by rw [cast_P_sub_one, h1]; simp
  have := eq_of_cast_eq _ _ (by norm_num [P]) (by norm_num [P]) h2
  norm_num [P] at this

/-- `D` is a non-residue (spec/00 R8). -/
theorem D_nonresidue : ¬ IsSquare (D : ZMod P) :=
  not_isSquare_of_fpow D (by norm_num [D, P]) (by norm_num [D]) (by decide +kernel)

/-! Operand and result assembly (spec/30 R79, R80). -/

theorem magnitude_eq (b : Buf) : magnitude b = b.toNat % 2 ^ 255 := by
  simp [magnitude, getBits]

theorem flagBit_eq (b : Buf) : flagBit b = decide (2 ^ 255 ≤ b.toNat) := by
  have h := b.isLt
  simp only [flagBit, BitVec.getLsbD, Nat.testBit]
  rw [Nat.shiftRight_eq_div_pow, Nat.and_comm, Nat.and_one_is_mod]
  by_cases hb : 2 ^ 255 ≤ b.toNat
  · have : b.toNat / 2 ^ 255 = 1 := by omega
    rw [this, decide_eq_true hb]
    rfl
  · have : b.toNat / 2 ^ 255 = 0 := by omega
    rw [this, decide_eq_false hb]
    rfl

theorem toNat_fenc (a : Nat) (ha : a < P) : (fenc a).toNat = a := by
  have := P_lt
  simp only [fenc, BitVec.toNat_ofNat]
  omega

/-- `value + flag·2^255` (spec/30 R80). -/
theorem toNat_assemble (a : Nat) (f : Bool) (ha : a < P) :
    (assemble a f).toNat = a + (if f then 2 ^ 255 else 0) := by
  have h := P_lt
  have hf := toNat_fenc a ha
  have e : assemble a f = BitVec.ofNat 256 (a + (if f then 2 ^ 255 else 0)) := by
    apply BitVec.eq_of_getLsbD_eq
    intro i hi
    have htop : a.testBit 255 = false := Nat.testBit_lt_two_pow (by omega)
    have hset := setBits_getLsbD (fenc a) 255 (BitVec.ofBool f) i hi
    by_cases h255 : i = 255
    · subst h255
      rw [assemble, hset, if_pos (by omega), BitVec.getLsbD_ofNat]
      cases f
      · simp [htop]
      · have : (a + 2 ^ 255).testBit 255 = true := by
          rw [Nat.add_comm, Nat.testBit_two_pow_add_eq, htop]; rfl
        rw [if_pos rfl, this]
        rfl
    · rw [assemble, hset, if_neg (by omega), fenc, BitVec.getLsbD_ofNat, BitVec.getLsbD_ofNat]
      cases f
      · simp
      · rw [if_pos rfl, Nat.add_comm a, Nat.testBit_two_pow_add_gt (by omega) a]
  rw [e, BitVec.toNat_ofNat]
  split <;> omega

end Sys2Proof.Laws
end

