-- ==== Sys2Proof/Laws/Flags.lean ====
section
/-! SUPPORT. What the issue step, a completion and fault entry do to each field of `STATUS` (spec/40 R103, R106, spec/60 R214). -/
namespace Sys2Proof.Laws

open Sys2Proof.Machine Sys2Proof.Safety

theorem setBusy_getLsbD (v : Bool) (st : Word) (i : Nat) (hi : i < 32) :
    (setBusy v st).getLsbD i = if i = 0 then v else st.getLsbD i := by
  simp only [setBusy, setBits_getLsbD _ _ _ _ hi, BitVec.getLsbD_ofBool]
  by_cases h : i = 0 <;> simp [h]

theorem setDone_getLsbD (v : Bool) (st : Word) (i : Nat) (hi : i < 32) :
    (setDone v st).getLsbD i = if i = 1 then v else st.getLsbD i := by
  simp only [setDone, setBits_getLsbD _ _ _ _ hi, BitVec.getLsbD_ofBool]
  by_cases h : i = 1
  · simp [h]
  · rw [if_neg (by omega), if_neg h]

theorem setFault_getLsbD (v : Bool) (st : Word) (i : Nat) (hi : i < 32) :
    (setFault v st).getLsbD i = if i = 3 then v else st.getLsbD i := by
  simp only [setFault, setBits_getLsbD _ _ _ _ hi, BitVec.getLsbD_ofBool]
  by_cases h : i = 3
  · simp [h]
  · rw [if_neg (by omega), if_neg h]

theorem setOutcome_getLsbD (v : BitVec 3) (st : Word) (i : Nat) (hi : i < 32) :
    (setOutcome v st).getLsbD i = if 4 ≤ i ∧ i < 7 then v.getLsbD (i - 4) else st.getLsbD i :=
  setBits_getLsbD _ _ _ _ hi

theorem setErrByte_getLsbD (v : BitVec 5) (st : Word) (i : Nat) (hi : i < 32) :
    (setErrByte v st).getLsbD i = if 8 ≤ i ∧ i < 13 then v.getLsbD (i - 8) else st.getLsbD i :=
  setBits_getLsbD _ _ _ _ hi

theorem setErrBit_getLsbD (v : BitVec 3) (st : Word) (i : Nat) (hi : i < 32) :
    (setErrBit v st).getLsbD i = if 13 ≤ i ∧ i < 16 then v.getLsbD (i - 13) else st.getLsbD i :=
  setBits_getLsbD _ _ _ _ hi

/-- `complete` writes `BUSY`, `DONE` and the three fields and nothing else of `STATUS`. -/
theorem completedStatus_getLsbD (o : OutcomeCode) (eb : BitVec 5) (bt : BitVec 3) (st : Word) (i : Nat) (hi : i < 32) :
    (completedStatus o eb bt st).getLsbD i =
      if i = 1 then true else if i = 0 then false
      else if 13 ≤ i ∧ i < 16 then bt.getLsbD (i - 13)
      else if 8 ≤ i ∧ i < 13 then eb.getLsbD (i - 8)
      else if 4 ≤ i ∧ i < 7 then (outcomeBits o).getLsbD (i - 4) else st.getLsbD i := by
  simp only [completedStatus, setDone_getLsbD _ _ _ hi, setBusy_getLsbD _ _ _ hi, setErrBit_getLsbD _ _ _ hi,
    setErrByte_getLsbD _ _ _ hi, setOutcome_getLsbD _ _ _ hi]

/-- Fault entry writes `FAULT`, `BUSY`, `DONE` and the three fields and nothing else of `STATUS`. -/
theorem faultStatus_getLsbD (st : Word) (i : Nat) (hi : i < 32) :
    (faultStatus st).getLsbD i =
      if i = 1 then true else if i = 0 then false
      else if 13 ≤ i ∧ i < 16 then false
      else if 8 ≤ i ∧ i < 13 then false
      else if 4 ≤ i ∧ i < 7 then true
      else if i = 3 then true else st.getLsbD i := by
  simp only [faultStatus, setDone_getLsbD _ _ _ hi, setBusy_getLsbD _ _ _ hi, setErrBit_getLsbD _ _ _ hi,
    setErrByte_getLsbD _ _ _ hi, setOutcome_getLsbD _ _ _ hi, setFault_getLsbD _ _ _ hi]
  by_cases h : 4 ≤ i ∧ i < 7
  · obtain ⟨h1, h2⟩ := h
    interval_cases i <;> simp [outcomeBits]
  · simp [h]

/-- Issue writes `BUSY`, `DONE` and the three fields and nothing else of `STATUS`. -/
theorem issuedStatus_getLsbD (st : Word) (i : Nat) (hi : i < 32) :
    (issuedStatus st).getLsbD i =
      if 13 ≤ i ∧ i < 16 then false
      else if 8 ≤ i ∧ i < 13 then false
      else if 4 ≤ i ∧ i < 7 then false
      else if i = 1 then false else if i = 0 then true else st.getLsbD i := by
  simp only [issuedStatus, setDone_getLsbD _ _ _ hi, setBusy_getLsbD _ _ _ hi, setErrBit_getLsbD _ _ _ hi,
    setErrByte_getLsbD _ _ _ hi, setOutcome_getLsbD _ _ _ hi, outcomeBits]
  have h5 : ∀ j, BitVec.getLsbD (0 : BitVec 5) j = false := fun j => BitVec.getLsbD_zero
  have h3 : ∀ j, BitVec.getLsbD (0 : BitVec 3) j = false := fun j => BitVec.getLsbD_zero
  simp only [h5, h3]

/-- What `complete` does to `STATUS`, in the words of the statements. -/
theorem completedStatus_statusCompleted (o : OutcomeCode) (eb : BitVec 5) (bt : BitVec 3) (st : Word) :
    statusCompleted st (completedStatus o eb bt st) (outcomeBits o) eb bt := by
  have h := completedStatus_getLsbD o eb bt st
  refine ⟨h 0 (by decide), h 1 (by decide), ?_, ?_, ?_, h 2 (by decide), h 3 (by decide), h 7 (by decide), ?_⟩ <;>
    apply BitVec.eq_of_getLsbD_eq <;> intro i hi <;> rw [BitVec.getLsbD_extractLsb']
  · rw [h _ (by omega), if_neg (by omega), if_neg (by omega), if_neg (by omega), if_neg (by omega), if_pos (by omega)]
    simp [hi]
  · rw [h _ (by omega), if_neg (by omega), if_neg (by omega), if_neg (by omega), if_pos (by omega)]
    simp [hi]
  · rw [h _ (by omega), if_neg (by omega), if_neg (by omega), if_pos (by omega)]
    simp [hi]
  · rw [h _ (by omega), if_neg (by omega), if_neg (by omega), if_neg (by omega), if_neg (by omega), if_neg (by omega),
      BitVec.getLsbD_extractLsb']

/-- The phase after a completion is never `BUSY`, and `FAULT` only if it was. -/
theorem phaseOf_completedStatus (o : OutcomeCode) (eb : BitVec 5) (bt : BitVec 3) (st : Word) :
    phaseOf (completedStatus o eb bt st) = if statusFault st then .fault else .idle := by
  unfold phaseOf statusFault statusBusy
  rw [completedStatus_getLsbD _ _ _ _ 3 (by decide), completedStatus_getLsbD _ _ _ _ 0 (by decide)]
  rfl

@[simp] theorem phaseOf_faultStatus (st : Word) : phaseOf (faultStatus st) = .fault := by
  unfold phaseOf statusFault
  rw [faultStatus_getLsbD _ 3 (by decide)]
  rfl

/-- The phase after an issue. -/
theorem phaseOf_issuedStatus (st : Word) :
    phaseOf (issuedStatus st) = if statusFault st then .fault else .busy := by
  unfold phaseOf statusFault statusBusy
  rw [issuedStatus_getLsbD _ 3 (by decide), issuedStatus_getLsbD _ 0 (by decide)]
  rfl

/-- The phases of the eight legal words (spec/10 R27, R30). -/
theorem phaseOf_legal (st : Word) (h : legalStatus st) :
    (phaseOf st = .busy ↔ st = 1) ∧ (phaseOf st = .fault ↔ st = 0x7A) := by
  rcases h with rfl | rfl | rfl | rfl | rfl | rfl | rfl | rfl <;> decide

end Sys2Proof.Laws
end

