-- ==== Sys2Proof/Laws/State.lean ====
section
/-! SUPPORT. One lemma per field of State per operation that updates it. -/
namespace Sys2Proof.Laws

open Sys2Proof.Machine

@[simp] theorem issue_opa (w : Word) (s : State) : (issue w s).opa = s.opa := rfl
@[simp] theorem issue_opb (w : Word) (s : State) : (issue w s).opb = s.opb := rfl
@[simp] theorem issue_res (w : Word) (s : State) : (issue w s).res = 0 := rfl
@[simp] theorem issue_status (w : Word) (s : State) : (issue w s).status = issuedStatus s.status := rfl
@[simp] theorem issue_cmdr (w : Word) (s : State) : (issue w s).cmdr = w := rfl
@[simp] theorem issue_power (w : Word) (s : State) : (issue w s).power = s.power := rfl
@[simp] theorem issue_losses (w : Word) (s : State) : (issue w s).losses = s.losses := rfl
@[simp] theorem issue_host (w : Word) (s : State) : (issue w s).host = s.host := rfl
@[simp] theorem issue_replies (w : Word) (s : State) : (issue w s).replies = s.replies := rfl

@[simp] theorem complete_opa (o : OutcomeCode) (r : Buf) (eb : BitVec 5) (bt : BitVec 3) (s : State) : (complete o r eb bt s).opa = s.opa := rfl
@[simp] theorem complete_opb (o : OutcomeCode) (r : Buf) (eb : BitVec 5) (bt : BitVec 3) (s : State) : (complete o r eb bt s).opb = s.opb := rfl
@[simp] theorem complete_res (o : OutcomeCode) (r : Buf) (eb : BitVec 5) (bt : BitVec 3) (s : State) : (complete o r eb bt s).res = r := rfl
@[simp] theorem complete_status (o : OutcomeCode) (r : Buf) (eb : BitVec 5) (bt : BitVec 3) (s : State) : (complete o r eb bt s).status = completedStatus o eb bt s.status := rfl
@[simp] theorem complete_cmdr (o : OutcomeCode) (r : Buf) (eb : BitVec 5) (bt : BitVec 3) (s : State) : (complete o r eb bt s).cmdr = s.cmdr := rfl
@[simp] theorem complete_power (o : OutcomeCode) (r : Buf) (eb : BitVec 5) (bt : BitVec 3) (s : State) : (complete o r eb bt s).power = s.power := rfl
@[simp] theorem complete_losses (o : OutcomeCode) (r : Buf) (eb : BitVec 5) (bt : BitVec 3) (s : State) : (complete o r eb bt s).losses = s.losses := rfl
@[simp] theorem complete_host (o : OutcomeCode) (r : Buf) (eb : BitVec 5) (bt : BitVec 3) (s : State) : (complete o r eb bt s).host = s.host := rfl
@[simp] theorem complete_replies (o : OutcomeCode) (r : Buf) (eb : BitVec 5) (bt : BitVec 3) (s : State) : (complete o r eb bt s).replies = s.replies := rfl

@[simp] theorem raiseFault_opa (c : FaultCause) (s : State) : (raiseFault c s).opa = s.opa := rfl
@[simp] theorem raiseFault_opb (c : FaultCause) (s : State) : (raiseFault c s).opb = s.opb := rfl
@[simp] theorem raiseFault_res (c : FaultCause) (s : State) : (raiseFault c s).res = 0 := rfl
@[simp] theorem raiseFault_status (c : FaultCause) (s : State) : (raiseFault c s).status = faultStatus s.status := rfl
@[simp] theorem raiseFault_cmdr (c : FaultCause) (s : State) : (raiseFault c s).cmdr = s.cmdr := rfl
@[simp] theorem raiseFault_power (c : FaultCause) (s : State) : (raiseFault c s).power = s.power := rfl
@[simp] theorem raiseFault_losses (c : FaultCause) (s : State) : (raiseFault c s).losses = s.losses := rfl
@[simp] theorem raiseFault_host (c : FaultCause) (s : State) : (raiseFault c s).host = s.host := rfl
@[simp] theorem raiseFault_replies (c : FaultCause) (s : State) : (raiseFault c s).replies = s.replies := rfl

@[simp] theorem resetBlock_opa (s : State) : (resetBlock s).opa = 0 := rfl
@[simp] theorem resetBlock_opb (s : State) : (resetBlock s).opb = 0 := rfl
@[simp] theorem resetBlock_res (s : State) : (resetBlock s).res = 0 := rfl
@[simp] theorem resetBlock_status (s : State) : (resetBlock s).status = 0 := rfl
@[simp] theorem resetBlock_cmdr (s : State) : (resetBlock s).cmdr = 0 := rfl
@[simp] theorem resetBlock_power (s : State) : (resetBlock s).power = .ready := rfl
@[simp] theorem resetBlock_losses (s : State) : (resetBlock s).losses = s.losses := rfl
@[simp] theorem resetBlock_host (s : State) : (resetBlock s).host = s.host := rfl
@[simp] theorem resetBlock_replies (s : State) : (resetBlock s).replies = s.replies := rfl

@[simp] theorem losePower_opa (s : State) : (losePower s).opa = Config.unresetBuf (3 * s.losses) := rfl
@[simp] theorem losePower_opb (s : State) : (losePower s).opb = Config.unresetBuf (3 * s.losses + 1) := rfl
@[simp] theorem losePower_res (s : State) : (losePower s).res = Config.unresetBuf (3 * s.losses + 2) := rfl
@[simp] theorem losePower_status (s : State) : (losePower s).status = Config.unresetWord (2 * s.losses) := rfl
@[simp] theorem losePower_cmdr (s : State) : (losePower s).cmdr = Config.unresetWord (2 * s.losses + 1) := rfl
@[simp] theorem losePower_power (s : State) : (losePower s).power = .unreset := rfl
@[simp] theorem losePower_losses (s : State) : (losePower s).losses = s.losses + 1 := rfl
@[simp] theorem losePower_host (s : State) : (losePower s).host = s.host := rfl
@[simp] theorem losePower_replies (s : State) : (losePower s).replies = s.replies := rfl

@[simp] theorem eraseOperands_opa (s : State) : (eraseOperands s).opa = Config.identityEnc := rfl
@[simp] theorem eraseOperands_opb (s : State) : (eraseOperands s).opb = Config.identityEnc := rfl
@[simp] theorem eraseOperands_res (s : State) : (eraseOperands s).res = s.res := rfl
@[simp] theorem eraseOperands_status (s : State) : (eraseOperands s).status = s.status := rfl
@[simp] theorem eraseOperands_cmdr (s : State) : (eraseOperands s).cmdr = s.cmdr := rfl
@[simp] theorem eraseOperands_power (s : State) : (eraseOperands s).power = s.power := rfl
@[simp] theorem eraseOperands_losses (s : State) : (eraseOperands s).losses = s.losses := rfl
@[simp] theorem eraseOperands_host (s : State) : (eraseOperands s).host = s.host := rfl
@[simp] theorem eraseOperands_replies (s : State) : (eraseOperands s).replies = s.replies := rfl

@[simp] theorem answer_opa (w : Word) (s : State) : (answer w s).opa = s.opa := rfl
@[simp] theorem answer_opb (w : Word) (s : State) : (answer w s).opb = s.opb := rfl
@[simp] theorem answer_res (w : Word) (s : State) : (answer w s).res = s.res := rfl
@[simp] theorem answer_status (w : Word) (s : State) : (answer w s).status = s.status := rfl
@[simp] theorem answer_cmdr (w : Word) (s : State) : (answer w s).cmdr = s.cmdr := rfl
@[simp] theorem answer_power (w : Word) (s : State) : (answer w s).power = s.power := rfl
@[simp] theorem answer_losses (w : Word) (s : State) : (answer w s).losses = s.losses := rfl
@[simp] theorem answer_host (w : Word) (s : State) : (answer w s).host = s.host := rfl
@[simp] theorem answer_replies (w : Word) (s : State) : (answer w s).replies = s.replies ++ [w] := rfl

@[simp] theorem withHost_opa (rest : List HostStep) (s : State) : (withHost rest s).opa = s.opa := rfl
@[simp] theorem withHost_opb (rest : List HostStep) (s : State) : (withHost rest s).opb = s.opb := rfl
@[simp] theorem withHost_res (rest : List HostStep) (s : State) : (withHost rest s).res = s.res := rfl
@[simp] theorem withHost_status (rest : List HostStep) (s : State) : (withHost rest s).status = s.status := rfl
@[simp] theorem withHost_cmdr (rest : List HostStep) (s : State) : (withHost rest s).cmdr = s.cmdr := rfl
@[simp] theorem withHost_power (rest : List HostStep) (s : State) : (withHost rest s).power = s.power := rfl
@[simp] theorem withHost_losses (rest : List HostStep) (s : State) : (withHost rest s).losses = s.losses := rfl
@[simp] theorem withHost_host (rest : List HostStep) (s : State) : (withHost rest s).host = rest := rfl
@[simp] theorem withHost_replies (rest : List HostStep) (s : State) : (withHost rest s).replies = s.replies := rfl

@[simp] theorem finish_opa (e : Ending) (s : State) : (finish e s).opa = s.opa := by cases e <;> rfl
@[simp] theorem finish_opb (e : Ending) (s : State) : (finish e s).opb = s.opb := by cases e <;> rfl
@[simp] theorem finish_cmdr (e : Ending) (s : State) : (finish e s).cmdr = s.cmdr := by cases e <;> rfl
@[simp] theorem finish_power (e : Ending) (s : State) : (finish e s).power = s.power := by cases e <;> rfl
@[simp] theorem finish_losses (e : Ending) (s : State) : (finish e s).losses = s.losses := by cases e <;> rfl
@[simp] theorem finish_host (e : Ending) (s : State) : (finish e s).host = s.host := by cases e <;> rfl
@[simp] theorem finish_replies (e : Ending) (s : State) : (finish e s).replies = s.replies := by cases e <;> rfl

@[simp] theorem reset_opa : State.reset.opa = 0 := rfl
@[simp] theorem reset_opb : State.reset.opb = 0 := rfl
@[simp] theorem reset_res : State.reset.res = 0 := rfl
@[simp] theorem reset_status : State.reset.status = 0 := rfl
@[simp] theorem reset_cmdr : State.reset.cmdr = 0 := rfl
@[simp] theorem reset_power : State.reset.power = .ready := rfl
@[simp] theorem reset_losses : State.reset.losses = 0 := rfl
@[simp] theorem reset_host : State.reset.host = [] := rfl
@[simp] theorem reset_replies : State.reset.replies = [] := rfl

@[simp] theorem withFetchWord_opa (s : State) (nbits w : Nat) : (s.withFetchWord nbits w).opa = s.opa := rfl
@[simp] theorem withFetchWord_opb (s : State) (nbits w : Nat) : (s.withFetchWord nbits w).opb = s.opb := rfl
@[simp] theorem withFetchWord_res (s : State) (nbits w : Nat) : (s.withFetchWord nbits w).res = 0 := rfl
@[simp] theorem withFetchWord_status (s : State) (nbits w : Nat) : (s.withFetchWord nbits w).status = 0x00000001 := rfl
@[simp] theorem withFetchWord_power (s : State) (nbits w : Nat) : (s.withFetchWord nbits w).power = .ready := rfl
@[simp] theorem withFetchWord_losses (s : State) (nbits w : Nat) : (s.withFetchWord nbits w).losses = s.losses := rfl
@[simp] theorem withFetchWord_host (s : State) (nbits w : Nat) : (s.withFetchWord nbits w).host = [] := rfl
@[simp] theorem withFetchWord_replies (s : State) (nbits w : Nat) : (s.withFetchWord nbits w).replies = s.replies := rfl

end Sys2Proof.Laws
end

