-- ==== Sys2Proof/Laws/Ops.lean ====
section
/-! SUPPORT. What each shared operation, each command and each step can do, said once. -/
namespace Sys2Proof.Laws

open Sys2Proof.Machine Sys2Proof.Config Sys2Proof.Safety

/-- The end of a command: a completion writes `RES` and `STATUS`, fault entry clears `RES` and writes `STATUS`. -/
theorem finish_cases (e : Ending) (s : State) :
    (∃ o r eb bt, e = .complete o r eb bt ∧
      finish e s = { s with res := r, status := completedStatus o eb bt s.status }) ∨
    (∃ c, e = .raise c ∧ finish e s = { s with res := 0, status := faultStatus s.status }) := by
  cases e with
  | complete o r eb bt => exact .inl ⟨o, r, eb, bt, rfl, rfl⟩
  | raise c => exact .inr ⟨c, rfl, rfl⟩

/-- How each command ends in a state. -/
def endingOf (i : Instr) (s : State) : Ending :=
  match i with
  | .sqrtRatio => sqrtRatioEnding blockSqrtM1 s.opa s.opb
  | .decompress => decompressEnding blockSqrtM1 s.opa
  | .compress => compressEnding blockSqrtM1 s.opa
  | .legacyConvert => legacyConvertEnding blockIsoFactor s.opa
  | .erase => .complete .ok identityEnc 0 0

/-- The state a command's end is written over: `ERASE` has already written the operand registers. -/
def endingBase (i : Instr) (s : State) : State :=
  match i with
  | .sqrtRatio => s
  | .decompress => s
  | .compress => s
  | .legacyConvert => s
  | .erase => eraseOperands s

/-- Every command answers a next state, in every state: its end written over its base. -/
theorem exec_eq (i : Instr) (s : State) : exec i s = .next (finish (endingOf i s) (endingBase i s)) := by
  cases i <;> rfl

theorem endingBase_of_ne_erase (i : Instr) (s : State) (h : i ≠ .erase) : endingBase i s = s := by
  cases i <;> first | rfl | exact absurd rfl h

/-- An accepted operand word (spec/20 R55). -/
theorem writePort_opa (k : Fin 8) (w : Word) (s : State) (h : phase s = .idle) :
    writePort (.opa k) w s = { s with opa := setWord s.opa k w } := if_pos h

theorem writePort_opb (k : Fin 8) (w : Word) (s : State) (h : phase s = .idle) :
    writePort (.opb k) w s = { s with opb := setWord s.opb k w } := if_pos h

/-- The issue step (spec/40 R103). -/
theorem writePort_cmd (w : Word) (s : State) (h : phase s = .idle) : writePort .cmd w s = issue w s := if_pos h

/-- Outside phase `IDLE` every write is dropped (spec/20 R55, spec/40 R102). -/
theorem writePort_of_not_idle (p : Port) (w : Word) (s : State) (h : phase s ≠ .idle) : writePort p w s = s := by
  cases p <;> simp [writePort, h]

/-- What a write can do: nothing, an issue, or one operand word. -/
theorem writePort_cases (p : Port) (w : Word) (s : State) :
    writePort p w s = s ∨
    (phase s = .idle ∧ p = .cmd ∧ writePort p w s = issue w s) ∨
    (phase s = .idle ∧ ∃ k, p = .opa k ∧ writePort p w s = { s with opa := setWord s.opa k w }) ∨
    (phase s = .idle ∧ ∃ k, p = .opb k ∧ writePort p w s = { s with opb := setWord s.opb k w }) := by
  by_cases h : phase s = .idle
  · cases p with
    | cmd => exact .inr (.inl ⟨h, rfl, writePort_cmd w s h⟩)
    | status => exact .inl rfl
    | reserved => exact .inl rfl
    | opa k => exact .inr (.inr (.inl ⟨h, k, rfl, writePort_opa k w s h⟩))
    | opb k => exact .inr (.inr (.inr ⟨h, k, rfl, writePort_opb k w s h⟩))
    | res k => exact .inl rfl
  · exact .inl (writePort_of_not_idle p w s h)

/-- The window's map, word by word (spec/20 R50). -/
theorem portOf_cases (off : Nat) (h : off < 128) (h4 : off % 4 = 0) :
    (off = 0 ∧ portOf off = .cmd) ∨ (off = 4 ∧ portOf off = .status) ∨
    (8 ≤ off ∧ off < 32 ∧ portOf off = .reserved) ∨
    (∃ k : Fin 8, off = 0x20 + 4 * k.val ∧ portOf off = .opa k) ∨
    (∃ k : Fin 8, off = 0x40 + 4 * k.val ∧ portOf off = .opb k) ∨
    (∃ k : Fin 8, off = 0x60 + 4 * k.val ∧ portOf off = .res k) := by
  have hfin : ∀ b, (h1 : b ≤ off / 4) → (h2 : off / 4 < b + 8) → b % 8 = 0 →
      Fin.ofNat 8 (off / 4) = ⟨off / 4 - b, by omega⟩ := by
    intro b h1 h2 h3
    apply Fin.ext
    simp only [Fin.ofNat]
    omega
  unfold portOf
  by_cases h0 : off / 4 = 0
  · exact .inl ⟨by omega, by rw [if_pos h0]⟩
  rw [if_neg h0]
  by_cases h1 : off / 4 = 1
  · exact .inr (.inl ⟨by omega, by rw [if_pos h1]⟩)
  rw [if_neg h1]
  by_cases h8 : off / 4 < 8
  · exact .inr (.inr (.inl ⟨by omega, by omega, by rw [if_pos h8]⟩))
  rw [if_neg h8]
  by_cases h16 : off / 4 < 16
  · exact .inr (.inr (.inr (.inl ⟨⟨off / 4 - 8, by omega⟩, by dsimp only; omega, by
      rw [if_pos h16, hfin 8 (by omega) (by omega) rfl]⟩)))
  rw [if_neg h16]
  by_cases h24 : off / 4 < 24
  · exact .inr (.inr (.inr (.inr (.inl ⟨⟨off / 4 - 16, by omega⟩, by dsimp only; omega, by
      rw [if_pos h24, hfin 16 (by omega) (by omega) rfl]⟩))))
  · exact .inr (.inr (.inr (.inr (.inr ⟨⟨off / 4 - 24, by omega⟩, by dsimp only; omega, by
      rw [if_neg h24, hfin 24 (by omega) (by omega) rfl]⟩))))

/-- The three things `Access.wf` asks (spec/20 R54). -/
theorem access_wf_iff (a : Access) : a.wf = true ↔ a.off < 128 ∧ a.width = 4 ∧ a.off % 4 = 0 := by
  simp [Access.wf, Access.inWindow, Access.wordWide, Access.aligned, and_assoc]

/-- An access the block accepts is performed. -/
theorem hostAccess_of_wf (a : Access) (s : State) (hp : s.power = .ready) (h : a.wf = true) :
    hostAccess a s = .next (performAccess a s) := by
  have hw : a.inWindow = true := by simp [Access.wf] at h; exact h.1.1
  simp [hostAccess, hw, hp, h]

/-- Only an access the block accepts answers a next state. -/
theorem hostAccess_next (a : Access) (s t : State) (h : hostAccess a s = .next t) :
    s.power = .ready ∧ a.wf = true ∧ t = performAccess a s := by
  unfold hostAccess at h
  split at h
  · cases h
  · split at h
    · cases h
    · rename_i hp
      split at h
      · cases h
      · rename_i hw
        cases h
        refine ⟨?_, by simpa using hw, rfl⟩
        cases hs : s.power
        · exact absurd hs hp
        · rfl

/-- The engine's turn: the completion of a command, of an illegal word, or nothing. -/
theorem engineTurn_next (s t : State) (h : engineTurn exec s = .next t) :
    (s.power = .ready ∧ phase s = .busy ∧ ∃ i, decode s.cmdr = .ok i ∧
      t = finish (endingOf i s) (endingBase i s)) ∨
    (s.power = .ready ∧ phase s = .busy ∧ (∃ e, decode s.cmdr = .error e) ∧ t = complete .errIllegal 0 0 0 s) ∨
    (¬ (s.power = .ready ∧ phase s = .busy) ∧ t = s) := by
  unfold engineTurn at h
  split at h
  · rename_i he
    simp only [engineEnabled, decide_eq_true_eq] at he
    split at h
    · rename_i i hi
      rw [exec_eq] at h
      exact .inl ⟨he.1, he.2, i, hi, by cases h; rfl⟩
    · rename_i e hi
      exact .inr (.inl ⟨he.1, he.2, ⟨e, hi⟩, by cases h; rfl⟩)
  · rename_i he
    simp only [engineEnabled, decide_eq_true_eq] at he
    exact .inr (.inr ⟨he, by cases h; rfl⟩)

/-- What one step can do (spec/40 R101). -/
theorem step_next (s t : State) (h : step s = .next t) :
    (s.host = [] ∧ engineTurn exec s = .next t) ∨
    (∃ rest, s.host = .engine :: rest ∧ engineTurn exec (withHost rest s) = .next t) ∨
    (∃ a rest, s.host = .access a :: rest ∧ s.power = .ready ∧ a.wf = true ∧
      t = performAccess a (withHost rest s)) ∨
    (∃ d rest, s.host = .reset d :: rest ∧ t = resetBlock (withHost rest s)) ∨
    (∃ rest, s.host = .powerLoss :: rest ∧ t = losePower (withHost rest s)) := by
  unfold step nextStep at h
  split at h
  · rename_i hh; exact .inl ⟨hh, h⟩
  · rename_i rest hh; exact .inr (.inl ⟨rest, hh, h⟩)
  · rename_i a rest hh
    obtain ⟨h1, h2, h3⟩ := hostAccess_next _ _ _ h
    exact .inr (.inr (.inl ⟨a, rest, hh, h1, h2, h3⟩))
  · rename_i d rest hh; exact .inr (.inr (.inr (.inl ⟨d, rest, hh, by cases h; rfl⟩)))
  · rename_i rest hh; exact .inr (.inr (.inr (.inr ⟨rest, hh, by cases h; rfl⟩)))

/-- The step, head of the schedule by head of the schedule. -/
theorem step_nil (s : State) (h : s.host = []) : step s = engineTurn exec s := by
  simp [step, nextStep, h]

theorem step_engine (s : State) (rest : List HostStep) (h : s.host = .engine :: rest) :
    step s = engineTurn exec (withHost rest s) := by simp [step, nextStep, h]

theorem step_access (s : State) (a : Access) (rest : List HostStep) (h : s.host = .access a :: rest) :
    step s = hostAccess a (withHost rest s) := by simp [step, nextStep, h]

theorem step_reset (s : State) (d : List Access) (rest : List HostStep) (h : s.host = .reset d :: rest) :
    step s = .next (resetBlock (withHost rest s)) := by simp [step, nextStep, h]

theorem step_powerLoss (s : State) (rest : List HostStep) (h : s.host = .powerLoss :: rest) :
    step s = .next (losePower (withHost rest s)) := by simp [step, nextStep, h]

/-- The engine's turn when a command is held (spec/40 R106). -/
theorem engineTurn_of_command (s : State) (i : Instr) (hp : s.power = .ready) (hb : phase s = .busy)
    (hi : decode s.cmdr = .ok i) : engineTurn exec s = exec i s := by
  simp [engineTurn, engineEnabled, fetchCommand, hp, hb, hi]

end Sys2Proof.Laws
end

