-- ==== Sys2Proof/Laws/PerInstr.lean ====
section
/-! SUPPORT. Families of lemmas, one lemma per command. -/
namespace Sys2Proof.Laws.CommandWord

/-- The whole word of a command is a command word: `ZERO` is 0, `OPCODE` is one of 1 to 5, and the decoder reads it back
(spec/30 R71). -/
def Statement (i : Instr) : Prop :=
  zeroField (encode i) = 0 ∧ 1 ≤ (opcodeField (encode i)).toNat ∧ (opcodeField (encode i)).toNat ≤ 5 ∧
  decode (encode i) = .ok i

theorem sqrtRatio : Statement .sqrtRatio := by unfold Statement; decide
theorem decompress : Statement .decompress := by unfold Statement; decide
theorem compress : Statement .compress := by unfold Statement; decide
theorem legacyConvert : Statement .legacyConvert := by unfold Statement; decide
theorem erase : Statement .erase := by unfold Statement; decide

end Sys2Proof.Laws.CommandWord
end

