-- ==== Sys2Proof/Laws/SqrtRatio.lean ====
section
/-! SUPPORT. What the function `sqrt_ratio` of spec/42 can answer, said once, for a square root `i` of −1 as an argument. -/
namespace Sys2Proof.Laws

open Sys2Proof.Machine Sys2Proof.Config

theorem rootCandidate_lt (u v : Nat) : rootCandidate u v < P := fmul_lt _ _

theorem rootCheck_lt (u v : Nat) : rootCheck u v < P := fmul_lt _ _

theorem cast_rootCandidate (u v : Nat) : ((rootCandidate u v : Nat) : ZMod P) =
    (u : ZMod P) * (v : ZMod P) ^ 3 * ((u : ZMod P) * (v : ZMod P) ^ 7) ^ EXP := by
  simp only [rootCandidate, cast_fmul, cast_fcube, cast_fpow, cast_fpow7]

/-- The check value is `v·r0²` (spec/42 R152). -/
theorem cast_rootCheck_candidate (u v : Nat) :
    ((rootCheck u v : Nat) : ZMod P) = (v : ZMod P) * ((rootCandidate u v : Nat) : ZMod P) ^ 2 := by
  rw [rootCheck, cast_fmul, cast_fsq]

/-- `ω = (u·v⁷)^((P−1)/4)` of spec/42 R157. -/
def checkFactor (u v : Nat) : ZMod P := ((u : ZMod P) * (v : ZMod P) ^ 7) ^ ((P - 1) / 4)

/-- `check = u·ω` (spec/42 R157). -/
theorem cast_rootCheck (u v : Nat) : ((rootCheck u v : Nat) : ZMod P) = (u : ZMod P) * checkFactor u v := by
  have e : (P - 1) / 4 = 1 + 2 * EXP := by norm_num [EXP, P]
  rw [checkFactor, cast_rootCheck_candidate, cast_rootCandidate, e, pow_add, pow_mul', pow_one]
  ring

/-- `ω` is a square root of 1 or of −1 when neither operand is 0 (spec/42 R157). -/
theorem checkFactor_cases (u v : Nat) (hu : (u : ZMod P) ≠ 0) (hv : (v : ZMod P) ≠ 0) :
    checkFactor u v ^ 2 = 1 ∨ checkFactor u v ^ 2 = -1 := by
  have := fact_prime_P
  have e : (P - 1) / 4 * 4 = P - 1 := by norm_num [P]
  have h4 : checkFactor u v ^ 4 = 1 := by
    rw [checkFactor, ← pow_mul, e]
    exact ZMod.pow_card_sub_one_eq_one (mul_ne_zero hu (pow_ne_zero _ hv))
  have h : (checkFactor u v ^ 2 - 1) * (checkFactor u v ^ 2 + 1) = 0 := by linear_combination h4
  rcases mul_eq_zero.1 h with h | h
  · exact .inl (by linear_combination h)
  · exact .inr (by linear_combination h)

/-! The comparisons of spec/42 R153, in the field. -/

theorem rootCorrect_iff (u v : Nat) (hu : u < P) :
    rootCorrect u v = true ↔ ((rootCheck u v : Nat) : ZMod P) = u := feq_iff _ _ (rootCheck_lt u v) hu

theorem rootFlipped_iff (u v : Nat) (hu : u < P) :
    rootFlipped u v = true ↔ ((rootCheck u v : Nat) : ZMod P) = -u := by
  rw [rootFlipped, feq_iff _ _ (rootCheck_lt u v) (fneg_lt u), cast_fneg u hu.le]

theorem rootFlippedI_iff (i u v : Nat) (hu : u < P) :
    rootFlippedI i u v = true ↔ ((rootCheck u v : Nat) : ZMod P) = -u * i := by
  rw [rootFlippedI, feq_iff _ _ (rootCheck_lt u v) (fmul_lt _ _), cast_fmul, cast_fneg u hu.le]

/-- The corrected candidate (spec/42 R154), in the field. -/
theorem cast_rootCorrected (i u v : Nat) : ((rootCorrected i u v : Nat) : ZMod P) =
    if (rootFlipped u v || rootFlippedI i u v) = true then (i : ZMod P) * (rootCandidate u v : Nat)
    else (rootCandidate u v : Nat) := by
  unfold rootCorrected sel
  split
  · rw [cast_fmul]
  · rfl

theorem rootCorrected_lt (i u v : Nat) : rootCorrected i u v < P := by
  unfold rootCorrected sel
  split
  · exact fmul_lt _ _
  · exact rootCandidate_lt u v

/-! What `sqrt_ratio` answers. -/

/-- The root is canonical (spec/42 R156). -/
theorem sqrtRatioWith_lt (i u v : Nat) : (sqrtRatioWith i u v).2 < P := fabs_lt _ (rootCorrected_lt i u v)

/-- The root is, up to sign, the corrected candidate (spec/42 R156). -/
theorem cast_sqrtRatioWith_sq (i u v : Nat) :
    ((sqrtRatioWith i u v).2 : ZMod P) ^ 2 = ((rootCorrected i u v : Nat) : ZMod P) ^ 2 := by
  rcases cast_fabs (rootCorrected i u v) (rootCorrected_lt i u v).le with h | h <;> simp only [sqrtRatioWith, h]
  ring

theorem sqrtRatioWith_found (i u v : Nat) :
    (sqrtRatioWith i u v).1 = true ↔ rootCorrect u v = true ∨ rootFlipped u v = true := by
  simp [sqrtRatioWith]

/-- A candidate of 0 stays 0. -/
theorem sqrtRatioWith_root_zero (i u v : Nat) (h : ((rootCandidate u v : Nat) : ZMod P) = 0) :
    (sqrtRatioWith i u v).2 = 0 := by
  have := fact_prime_P
  have h1 : ((rootCorrected i u v : Nat) : ZMod P) = 0 := by rw [cast_rootCorrected, h]; simp
  have h2 := cast_sqrtRatioWith_sq i u v
  rw [h1] at h2
  rw [← cast_eq_zero_iff _ (sqrtRatioWith_lt i u v)]
  simpa using h2

/-- `u = 0`: found, with root 0 (spec/42 R157). -/
theorem sqrtRatioWith_zero_left (i u v : Nat) (hu : u < P) (h0 : (u : ZMod P) = 0) :
    (sqrtRatioWith i u v).1 = true ∧ (sqrtRatioWith i u v).2 = 0 := by
  refine ⟨(sqrtRatioWith_found i u v).2 (.inl ((rootCorrect_iff u v hu).2 ?_)), sqrtRatioWith_root_zero i u v ?_⟩
  · rw [cast_rootCheck, h0]; ring
  · rw [cast_rootCandidate, h0]; ring

/-- `v = 0`, `u ≠ 0`: not found, with root 0 (spec/42 R157). -/
theorem sqrtRatioWith_zero_right (i u v : Nat) (hu : u < P) (h0 : (u : ZMod P) ≠ 0) (hv : (v : ZMod P) = 0) :
    (sqrtRatioWith i u v).1 = false ∧ (sqrtRatioWith i u v).2 = 0 := by
  have hc : ((rootCheck u v : Nat) : ZMod P) = 0 := by rw [cast_rootCheck_candidate, hv]; ring
  refine ⟨?_, sqrtRatioWith_root_zero i u v (by rw [cast_rootCandidate, hv]; ring)⟩
  rw [Bool.eq_false_iff, Ne, sqrtRatioWith_found, rootCorrect_iff u v hu, rootFlipped_iff u v hu, hc]
  rintro (h | h)
  · exact h0 h.symm
  · exact h0 (by simpa using h.symm)

/-- Neither operand 0: found exactly when `ω² = 1` (spec/42 R157). -/
theorem sqrtRatioWith_found_iff_factor (i u v : Nat) (hu : u < P) (h0 : (u : ZMod P) ≠ 0) :
    (sqrtRatioWith i u v).1 = true ↔ checkFactor u v ^ 2 = 1 := by
  have := fact_prime_P
  rw [sqrtRatioWith_found, rootCorrect_iff u v hu, rootFlipped_iff u v hu, cast_rootCheck]
  constructor
  · rintro (h | h)
    · rw [mul_left_cancel₀ h0 (h.trans (mul_one _).symm)]; ring
    · rw [mul_left_cancel₀ h0 (h.trans (mul_neg_one _).symm)]; ring
  · intro h
    have h' : (checkFactor u v - 1) * (checkFactor u v + 1) = 0 := by linear_combination h
    rcases mul_eq_zero.1 h' with h | h
    · exact .inl (by linear_combination (u : ZMod P) * h)
    · exact .inr (by linear_combination (u : ZMod P) * h)

/-- A root that is found is a root of the ratio (spec/42 R157). -/
theorem sqrtRatioWith_of_found (i u v : Nat) (hi : i * i % P = P - 1) (hu : u < P)
    (h : (sqrtRatioWith i u v).1 = true) : (v : ZMod P) * ((sqrtRatioWith i u v).2 : ZMod P) ^ 2 = u := by
  have := fact_prime_P
  by_cases h0 : (u : ZMod P) = 0
  · rw [(sqrtRatioWith_zero_left i u v hu h0).2, h0]; simp
  have hck := cast_rootCheck_candidate u v
  have hii := cast_root_sq i hi
  rw [cast_sqrtRatioWith_sq, cast_rootCorrected]
  cases hf : rootFlipped u v with
  | true =>
    have hcu := (rootFlipped_iff u v hu).1 hf
    rw [Bool.true_or, if_pos rfl]
    linear_combination hck - hcu + (v : ZMod P) * ((rootCandidate u v : Nat) : ZMod P) ^ 2 * hii
  | false =>
    have hcu : ((rootCheck u v : Nat) : ZMod P) = u := by
      rcases (sqrtRatioWith_found i u v).1 h with h | h
      · exact (rootCorrect_iff u v hu).1 h
      · rw [hf] at h; cases h
    have n3 : rootFlippedI i u v = false := by
      rw [Bool.eq_false_iff, Ne, rootFlippedI_iff i u v hu, hcu]
      intro h
      have h1 : (i : ZMod P) = -1 := mul_left_cancel₀ h0 (by linear_combination h : (u : ZMod P) * i = u * (-1))
      rw [h1] at hii
      exact one_ne_zero (eq_zero_of_eq_neg (1 : ZMod P) (by linear_combination hii))
    rw [n3, Bool.or_false, if_neg (by simp), ← hck, hcu]

/-- A root that is not found, for `v ≠ 0`, is a root of `SQRT_M1` times the ratio (spec/42 R157, R160). -/
theorem sqrtRatioWith_of_not_found (i u v : Nat) (hi : i * i % P = P - 1) (hu : u < P) (hv : (v : ZMod P) ≠ 0)
    (h : (sqrtRatioWith i u v).1 = false) :
    (v : ZMod P) * ((sqrtRatioWith i u v).2 : ZMod P) ^ 2 = i * u := by
  have := fact_prime_P
  have h0 : (u : ZMod P) ≠ 0 := fun h0 => by
    rw [(sqrtRatioWith_zero_left i u v hu h0).1] at h; cases h
  have hck := cast_rootCheck_candidate u v
  have hii := cast_root_sq i hi
  have hf : rootFlipped u v = false := by
    rw [Bool.eq_false_iff]
    intro hf
    rw [(sqrtRatioWith_found i u v).2 (.inr hf)] at h; cases h
  have hw : checkFactor u v ^ 2 = -1 := by
    refine (checkFactor_cases u v h0 hv).resolve_left fun h1 => ?_
    rw [(sqrtRatioWith_found_iff_factor i u v hu h0).2 h1] at h; cases h
  rw [cast_sqrtRatioWith_sq, cast_rootCorrected, hf, Bool.false_or]
  have hz : (checkFactor u v - i) * (checkFactor u v + i) = 0 := by linear_combination hw - hii
  rcases mul_eq_zero.1 hz with hz | hz
  · have hcu : ((rootCheck u v : Nat) : ZMod P) = u * i := by
      rw [cast_rootCheck]; linear_combination (u : ZMod P) * hz
    have n3 : ¬ rootFlippedI i u v = true := by
      rw [rootFlippedI_iff i u v hu, hcu]
      intro h
      rcases mul_eq_zero.1 (eq_zero_of_eq_neg ((u : ZMod P) * i) (by linear_combination h)) with h | h
      · exact h0 h
      · rw [h] at hii; exact one_ne_zero (by linear_combination hii : (1 : ZMod P) = 0)
    rw [if_neg n3, ← hck, hcu]
    ring
  · have hcu : ((rootCheck u v : Nat) : ZMod P) = -u * i := by
      rw [cast_rootCheck]; linear_combination (u : ZMod P) * hz
    rw [if_pos ((rootFlippedI_iff i u v hu).2 hcu)]
    linear_combination hck - hcu + (v : ZMod P) * ((rootCandidate u v : Nat) : ZMod P) ^ 2 * hii

/-- Found exactly when the ratio has a root (spec/42 R157). -/
theorem sqrtRatioWith_found_iff (i u v : Nat) (hi : i * i % P = P - 1) (hu : u < P) :
    (sqrtRatioWith i u v).1 = true ↔ ∃ x : ZMod P, (v : ZMod P) * x ^ 2 = u := by
  have := fact_prime_P
  refine ⟨fun h => ⟨_, sqrtRatioWith_of_found i u v hi hu h⟩, fun ⟨x, hx⟩ => ?_⟩
  by_cases h0 : (u : ZMod P) = 0
  · exact (sqrtRatioWith_zero_left i u v hu h0).1
  have hv : (v : ZMod P) ≠ 0 := by rintro hv; rw [hv] at hx; exact h0 (by rw [← hx]; ring)
  have hx0 : x ≠ 0 := by rintro rfl; exact h0 (by rw [← hx]; ring)
  have e1 : (u : ZMod P) * (v : ZMod P) ^ 7 = ((v : ZMod P) ^ 4 * x) ^ 2 := by rw [← hx]; ring
  have e2 : 2 * ((P - 1) / 4 * 2) = P - 1 := by norm_num [P]
  rw [sqrtRatioWith_found_iff_factor i u v hu h0, checkFactor, e1, ← pow_mul, ← pow_mul, e2]
  exact ZMod.pow_card_sub_one_eq_one (mul_ne_zero (pow_ne_zero _ hv) hx0)

end Sys2Proof.Laws
end

