-- ==== Sys2Proof/Tests/Slice0.lean ====
section
/-! SUPPORT. Tests of single operations and single steps against the words and vectors of the spec (spec/95 vectors are named
by their ids), the refusals of ill-formed accesses, and a concrete case of the hypotheses of each statement that has any. -/
namespace Sys2Proof.Tests

open Sys2Proof Sys2Proof.Machine Sys2Proof.Safety Sys2Proof.Config Sys2Proof.Laws

/-- A reset block with word `w` in flight on the operands `a` and `b`, and the schedule `h`. -/
def busy (a b : Buf) (w : Word) (h : List HostStep) : State :=
  { State.reset with opa := a, opb := b, status := 1, cmdr := w, host := h }

/-- A reset block in phase `IDLE` with the schedule `h`. -/
def idle (h : List HostStep) : State := { State.reset with opa := 0x1234, opb := 0x99, host := h }

/-- A block in phase `FAULT` with the schedule `h`. -/
def faulted (h : List HostStep) : State := { State.reset with status := 0x7A, cmdr := 3, host := h }

/-- The state a step answers, if it answers one. -/
def next? (o : Host.Outcome State Fault Refusal) : Option State :=
  match o with
  | .next s => some s
  | _ => none

/-- `STATUS` and `RES` after a command on `a` that ends in `e`. -/
def endsIn (e : Ending) : Word × Buf := ((finish e (busy 0 0 0 [])).status, (finish e (busy 0 0 0 [])).res)

/-- A read, and a write of 7, of `width` bytes at `off`. -/
def rdAt (off width : Nat) : Access := ⟨.read, off, width⟩
def wrAt (off width : Nat) : Access := ⟨.write 7, off, width⟩

/-! ## Well-formedness: every check refuses an ill-formed access (spec/20 R54) -/

theorem test_wf_accepts_first_and_last_word : (rdAt 0 4).wf = true ∧ (wrAt 124 4).wf = true := by decide
theorem test_wf_refuses_outside_window : (rdAt 128 4).inWindow = false ∧ (rdAt 128 4).wf = false := by decide
theorem test_wf_refuses_byte_access : (rdAt 4 1).wordWide = false ∧ (rdAt 4 1).wf = false := by decide
theorem test_wf_refuses_double_word : (wrAt 0x20 8).wordWide = false ∧ (wrAt 0x20 8).wf = false := by decide
theorem test_wf_refuses_misaligned : (rdAt 6 4).aligned = false ∧ (rdAt 6 4).wf = false := by decide
theorem test_wf_schedule_entries :
    (HostStep.access (rdAt 127 4)).wf = false ∧ HostStep.engine.wf = true ∧ (HostStep.reset [rdAt 3 1]).wf = true ∧
    HostStep.powerLoss.wf = true := by decide
theorem test_wf_every_command : ∀ i : Instr, i.wf = true := by intro i; cases i <;> rfl

/-! ## Decoding: each word of spec/30 R71 written out, bit 31 first -/

theorem test_decode_sqrtRatio : decode 0b00000000000000000000000000000001 = .ok .sqrtRatio := by decide
theorem test_decode_decompress : decode 0b00000000000000000000000000000010 = .ok .decompress := by decide
theorem test_decode_compress : decode 0b00000000000000000000000000000011 = .ok .compress := by decide
theorem test_decode_legacyConvert : decode 0b00000000000000000000000000000100 = .ok .legacyConvert := by decide
theorem test_decode_erase : decode 0b00000000000000000000000000000101 = .ok .erase := by decide
/-- spec/95 E2, E4, E6: the opcodes 0, 6 and 15. -/
theorem test_decode_reserved_opcodes :
    decode 0 = .error .opcodeReserved ∧ decode 6 = .error .opcodeReserved ∧ decode 15 = .error .opcodeReserved := by decide
/-- spec/95 E3, E5, E7: a set bit in `ZERO`, the lowest and the highest of them among them. -/
theorem test_decode_zero_field :
    decode 0x00000011 = .error .zeroFieldSet ∧ decode 0x80000001 = .error .zeroFieldSet ∧
    decode 0x00000105 = .error .zeroFieldSet := by decide
theorem test_decodeBytes : decodeBytes [0x04, 0x00, 0x00, 0x00, 0xFF] = .ok (.legacyConvert, [0xFF]) ∧
    decodeBytes [0x04, 0x00, 0x00] = .error .truncated := by decide
theorem test_decodeTableWord : decodeTableWord 32 3 = some .compress ∧ decodeTableWord 32 6 = none ∧
    decodeTableWord 64 (2 ^ 32 + 1) = none := by decide

/-! ## The commands, on the vectors of spec/95, with the reference values of `SQRT_M1` and `ISO_FACTOR` those vectors name -/

/-- spec/95 S4: the square root of 4 is 2, not −2. -/
theorem test_sqrtRatio_S4 : endsIn (sqrtRatioEnding sqrtM1Ref 4 1) = (0x00000012, 2) := by decide +kernel
/-- spec/95 S9: the third branch, corrected and not found. -/
theorem test_sqrtRatio_S9 : endsIn (sqrtRatioEnding sqrtM1Ref 1 2) =
    (0x00000022, 0x2a3e6dbfd81f107a6a597fb36102142c685e73fca9680dc39d88f26c5af8af9e) := by decide +kernel
/-- spec/95 D6b: `x = 7` with the sign bit set: an odd `y`, bit 255 set. -/
theorem test_decompress_D6b : endsIn (decompressEnding sqrtM1Ref 0x8000000000000000000000000000000000000000000000000000000000000007) =
    (0x00000012, 0xc9f7f1c8e0a32fe8849573ea9b7d7e1c30f7b7ca319790340e5433fce7fc8feb) := by decide +kernel
/-- spec/95 D13: the source's own vector V7, second half. -/
theorem test_decompress_D13 : endsIn (decompressEnding sqrtM1Ref 0x5926e8ef8174e612648491acfcbf68d8b1326ac9f345cfe7b1d4276bbb66d9a3) =
    (0x00000012, 0xa4ff154a54c0801ae54c8e3f9b3d1de308d0298d4286a6fdb2e358f76485e01e) := by decide +kernel
/-- spec/95 K9: the source's own vector V7, first half. -/
theorem test_compress_K9 : endsIn (compressEnding sqrtM1Ref 0xa4ff154a54c0801ae54c8e3f9b3d1de308d0298d4286a6fdb2e358f76485e01e) =
    (0x00000012, 0x5926e8ef8174e612648491acfcbf68d8b1326ac9f345cfe7b1d4276bbb66d9a3) := by decide +kernel
/-- spec/95 K5: `y = 2` is on no point: the fault. -/
theorem test_compress_K5 : endsIn (compressEnding sqrtM1Ref 2) = (0x0000007A, 0) := by decide +kernel
/-- spec/95 L3: `2·ISO_FACTOR` modulo `P`. -/
theorem test_legacyConvert_L3 : endsIn (legacyConvertEnding isoFactorRef 2) =
    (0x00000012, 0x61b224173ebff2885b09ee47f807610274bc585d6905cafa6723f6aa017503e1) := by decide +kernel
/-- spec/95 L10: a set flag bit is rejected, not masked. -/
theorem test_legacyConvert_L10 : endsIn (legacyConvertEnding isoFactorRef (2 ^ 255 + 1)) = (0x0000FF32, 0) := by decide +kernel
/-- spec/95 E1. -/
theorem test_erase_E1 : (next? (step (busy 0x1234 0x99 5 []))).map (fun t => (t.opa, t.opb, t.res, t.status)) =
    some (1, 1, 1, 0x00000012) := by decide
/-- spec/95 E3: nothing but `RES` and `STATUS` is written. -/
theorem test_illegal_E3 : next? (step (busy 0x1234 0x99 0x11 [])) =
    some { busy 0x1234 0x99 0x11 [] with status := 0x00000052 } := by decide

/-! ## The host's accesses (spec/20 R50 to R56) -/

/-- Word 7 of `OPB` is at offset 0x5C, its bits 255:224 (spec/20 R50, R52). -/
theorem test_write_top_word_of_opb : (next? (step (idle [wr 0x5C 0xAABBCCDD]))).map (fun t => (t.opa, t.opb)) =
    some (0x1234, 0x99 + 0xAABBCCDD * 2 ^ 224) := by decide +kernel
/-- A write to `CMD` issues: the word is latched, `STATUS` is the busy word (spec/40 R103). -/
theorem test_issue : (next? (step (idle [wr 0x00 0x80000001]))).map (fun t => (t.cmdr, t.status, t.res)) =
    some (0x80000001, 0x00000001, 0) := by decide
/-- A second write to `CMD` in phase `BUSY` is dropped (spec/40 R104). -/
theorem test_command_in_flight_is_kept : (next? (step (busy 0 0 4 [wr 0x00 5]))).map (fun t => (t.cmdr, t.status)) =
    some (4, 0x00000001) := by decide
/-- Byte 0 of a register is the least significant (spec/20 R52, spec/00 R14). -/
theorem test_byte_order : getByte (bufOfBytes [0x34, 0x12]) 0 = 0x34 ∧ getWord (bufOfBytes [0x34, 0x12]) 0 = 0x1234 := by decide

/-! ## A concrete case of the hypotheses of each statement -/

theorem test_witness_DecodeAndEncodeAgree :
    Instr.compress.wf = true ∧ decode 3 = .ok .compress ∧ decodeBytes [3, 0, 0, 0, 9] = .ok (.compress, [9]) := by decide

theorem test_witness_ResetFromAnyState :
    (busy 5 7 1 [.reset [rdAt 3 1, wrAt 0 4], .engine]).host = .reset [rdAt 3 1, wrAt 0 4] :: [.engine] := rfl

theorem test_witness_ResetForgetsEverything :
    (busy 5 7 1 [.reset []]).host = .reset [] :: [] ∧ (faulted [.reset [rdAt 0 4]]).host = .reset [rdAt 0 4] :: [] := by decide

/-- A block with a command in flight has the invariant, and steps. -/
theorem test_witness_EveryStepKeepsInvariant :
    Inv (busy 5 7 0 []) ∧ next? (step (busy 5 7 0 [])) = some { busy 5 7 0 [] with status := 0x52 } := by
  unfold Safety.Inv legalStatus; decide

/-- A word of the list, and the word nearest to it with outcome 6, which is none. -/
theorem test_witness_StatusWordsAreExactlyTheLegalOnes : legalStatus 0x0000FF32 ∧ ¬ legalStatus 0x00000062 := by
  unfold legalStatus; decide

/-- The reads at the ends of each range of the window. -/
theorem test_witness_HostReadAnswersTheWindow :
    (∀ off ∈ [0x00, 0x04, 0x08, 0x1C, 0x20, 0x3C, 0x40, 0x5C, 0x60, 0x7C],
      (idle [rd off]).power = .ready ∧ off < 128 ∧ off % 4 = 0 ∧ (idle [rd off]).host = .access ⟨.read, off, 4⟩ :: []) := by
  decide

theorem test_witness_HostWriteReplacesAnOperandWord :
    ∀ k : Fin 8, (idle [wr (0x20 + 4 * k.val) 7]).power = .ready ∧ phase (idle [wr (0x20 + 4 * k.val) 7]) = .idle ∧
      (idle [wr (0x20 + 4 * k.val) 7]).host = .access ⟨.write 7, 0x20 + 4 * k.val, 4⟩ :: [] ∧
      phase (idle [wr (0x40 + 4 * k.val) 7]) = .idle ∧
      (idle [wr (0x40 + 4 * k.val) 7]).host = .access ⟨.write 7, 0x40 + 4 * k.val, 4⟩ :: [] := by decide

/-- Each of the three ways a write is dropped, at the ends of its range. -/
theorem test_witness_IgnoredWritesChangeNothing :
    phase (busy 5 7 1 [wr 0x00 7]) ≠ .idle ∧ phase (faulted [wr 0x20 7]) ≠ .idle ∧
    (∀ off ∈ [0x04, 0x08, 0x1C, 0x60, 0x7C], off < 128 ∧ off % 4 = 0 ∧ ((4 ≤ off ∧ off < 0x20) ∨ 0x60 ≤ off) ∧
      (idle [wr off 7]).power = .ready ∧ (idle [wr off 7]).host = .access ⟨.write 7, off, 4⟩ :: []) := by decide

theorem test_witness_IssueLatchesTheCommand :
    (idle [wr 0 0x11]).power = .ready ∧ phase (idle [wr 0 0x11]) = .idle ∧ legalStatus (idle [wr 0 0x11]).status ∧
    (idle [wr 0 0x11]).host = .access ⟨.write 0x11, 0, 4⟩ :: [] := by unfold legalStatus; decide

/-- An accepted access and the two ways an access inside the window is refused. -/
theorem test_witness_OnlyAlignedWordAccessesAreAccepted :
    (∀ a ∈ [rdAt 124 4, rdAt 127 4, wrAt 124 8, rdAt 125 1], (idle [.access a]).power = .ready ∧ a.off < 128 ∧
      (idle [.access a]).host = .access a :: []) ∧
    ((rdAt 124 4).width = 4 ∧ (rdAt 124 4).off % 4 = 0) ∧
    (∀ a ∈ [rdAt 127 4, wrAt 124 8, rdAt 125 1], ¬ (a.width = 4 ∧ a.off % 4 = 0)) := by decide

/-- A power loss, a refused access after it, and the reset that ends it. -/
theorem test_witness_PowerLossNeedsAReset :
    (idle [.powerLoss]).host = .powerLoss :: [] ∧
    (losePower (idle [rd 4])).power = .unreset ∧ (rdAt 4 4).off < 128 ∧
    (losePower (idle [rd 4])).host = .access (rdAt 4 4) :: [] ∧
    (∃ t, step (losePower (idle [.reset []])) = .next t ∧ t.power = .ready) :=
  ⟨rfl, rfl, by decide, rfl, _, rfl, rfl⟩

/-- The first offset outside the window, and the first bus address past it. -/
theorem test_witness_AccessOutsideTheWindowStops :
    128 ≤ (rdAt 128 4).off ∧ (idle [.access (rdAt 128 4)]).host = .access (rdAt 128 4) :: [] ∧
    (base + 128 < base ∨ base + 128 ≤ base + 128) := ⟨by decide, rfl, .inr (Nat.le_refl _)⟩

theorem test_witness_StepRunsTheDecodedCommand :
    ∀ i : Instr, (busy 5 7 (encode i) []).power = .ready ∧ phase (busy 5 7 (encode i) []) = .busy ∧
      decode (busy 5 7 (encode i) []).cmdr = .ok i ∧ i.wf = true ∧ (busy 5 7 (encode i) []).host = [] ∧
      (busy 5 7 (encode i) [.engine, rd 4]).host = .engine :: [rd 4] := by intro i; cases i <;> decide

/-- The words nearest to the commands': 0, 6 and 0x11. -/
theorem test_witness_IllegalWordCompletes :
    ∀ w ∈ [(0 : Word), 6, 0x11], (busy 5 7 w [.engine, rd 4]).power = .ready ∧ phase (busy 5 7 w [.engine, rd 4]) = .busy ∧
      (busy 5 7 w [.engine, rd 4]).host = .engine :: [rd 4] ∧ w ≠ 1 ∧ w ≠ 2 ∧ w ≠ 3 ∧ w ≠ 4 ∧ w ≠ 5 := by
  intro w hw
  simp only [List.mem_cons, List.not_mem_nil, or_false] at hw
  rcases hw with rfl | rfl | rfl <;> decide

theorem test_witness_EmptyScheduleIsAnEnginePoint : (busy 5 7 1 []).host = [] := rfl

/-- An idle block and a faulted one. -/
theorem test_witness_EngineActsOnlyInBusy :
    ¬ ((idle []).power = .ready ∧ phase (idle []) = .busy) ∧ (idle []).host = [] ∧
    ¬ ((faulted [.engine]).power = .ready ∧ phase (faulted [.engine]) = .busy) ∧
    (faulted [.engine]).host = .engine :: [] := by decide

theorem test_witness_BusyAccessesChangeNoRegister :
    (busy 5 7 1 [rd 4, wr 0 5, wr 0x20 9, .engine]).power = .ready ∧
    phase (busy 5 7 1 [rd 4, wr 0 5, wr 0x20 9, .engine]) = .busy ∧
    (∀ a ∈ [rdAt 4 4, ⟨.write 5, 0, 4⟩, ⟨.write 9, 0x20, 4⟩], a.wf = true) ∧
    (busy 5 7 1 [rd 4, wr 0 5, wr 0x20 9, .engine]).host =
      [rdAt 4 4, ⟨.write 5, 0, 4⟩, ⟨.write 9, 0x20, 4⟩].map HostStep.access ++ [.engine] := by decide

theorem test_witness_FaultPhaseIsAbsorbing :
    (faulted [.engine, wr 0 5, .reset []]).power = .ready ∧ phase (faulted [.engine, wr 0 5, .reset []]) = .fault ∧
    (∀ h ∈ [HostStep.engine, wr 0 5], h = .engine ∨ ∃ a : Access, h = .access a ∧ a.wf = true) ∧
    (faulted [.engine, wr 0 5, .reset []]).host = [.engine, wr 0 5] ++ [.reset []] := by
  refine ⟨rfl, by decide, ?_, rfl⟩
  intro h hh
  simp only [List.mem_cons, List.not_mem_nil, or_false] at hh
  rcases hh with rfl | rfl
  · exact .inl rfl
  · exact .inr ⟨⟨.write 5, 0, 4⟩, rfl, by decide⟩

/-- Two blocks that differ in `RES`, in what they have answered and in how the engine's turn comes. -/
theorem test_witness_ResultDependsOnCommandAndOperandsOnly :
    ∃ t, (busy 5 7 6 [.engine, rd 4]).power = .ready ∧ { busy 5 7 6 [] with res := 3, replies := [9] }.power = .ready ∧
      (busy 5 7 6 [.engine, rd 4]).status = 0x00000001 ∧
      { busy 5 7 6 [] with res := 3, replies := [9] }.status = 0x00000001 ∧
      (busy 5 7 6 [.engine, rd 4]).host = .engine :: [rd 4] ∧ { busy 5 7 6 [] with res := 3, replies := [9] }.host = [] ∧
      step (busy 5 7 6 [.engine, rd 4]) = .next t := ⟨_, rfl, rfl, rfl, rfl, rfl, rfl, rfl⟩

/-- Reads of `CMD`, of `STATUS`, of the last reserved word and of the ends of `RES` while busy. -/
theorem test_witness_BusyShowsNothingOfTheOperands :
    ∀ off ∈ [0x00, 0x04, 0x1C, 0x60, 0x7C], Inv (busy 5 7 1 [rd off]) ∧ (busy 5 7 1 [rd off]).power = .ready ∧
      phase (busy 5 7 1 [rd off]) = .busy ∧ off < 128 ∧ off % 4 = 0 ∧ (off < 0x20 ∨ 0x60 ≤ off) ∧
      (busy 5 7 1 [rd off]).host = .access ⟨.read, off, 4⟩ :: [] := by unfold Safety.Inv legalStatus; decide

/-- A step from each phase: an issue, the completion into `FAULT`, and a reset out of it. -/
theorem test_witness_PhaseChangesOnlyAsSequenced :
    (∃ t, step (idle [wr 0 3]) = .next t ∧ (idle [wr 0 3]).power = .ready ∧ t.power = .ready ∧
      phase (idle [wr 0 3]) = .idle ∧ phase t = .busy) ∧
    (∃ t, step (busy 2 7 3 []) = .next t ∧ (busy 2 7 3 []).power = .ready ∧ t.power = .ready ∧
      phase (busy 2 7 3 []) = .busy ∧ phase t = .fault) ∧
    (∃ t, step (faulted [.reset []]) = .next t ∧ (faulted [.reset []]).power = .ready ∧ t.power = .ready ∧
      phase (faulted [.reset []]) = .fault ∧ phase t = .idle) :=
  ⟨⟨_, rfl, rfl, rfl, by decide, by decide⟩,
    ⟨finish (compressEnding blockSqrtM1 2) (busy 2 7 3 []), (step_nil _ rfl).trans (engineTurn_of_command _ .compress rfl (by decide) (by decide)), rfl, by decide +kernel, by decide,
      by decide +kernel⟩,
    ⟨_, rfl, rfl, rfl, by decide, by decide⟩⟩

/-- A change of each data register: an operand write, an erase. -/
theorem test_witness_RegistersChangeOnlyAsStated :
    (∃ t, step (idle [wr 0x20 9]) = .next t ∧ t.power = .ready ∧ t.opa ≠ (idle [wr 0x20 9]).opa) ∧
    (∃ t, step (idle [wr 0x5C 9]) = .next t ∧ t.power = .ready ∧ t.opb ≠ (idle [wr 0x5C 9]).opb) ∧
    (∃ t, step (busy 5 7 5 []) = .next t ∧ t.power = .ready ∧ t.opa ≠ (busy 5 7 5 []).opa ∧
      t.opb ≠ (busy 5 7 5 []).opb ∧ t.res ≠ (busy 5 7 5 []).res) :=
  ⟨⟨_, rfl, rfl, by decide⟩, ⟨_, rfl, rfl, by decide⟩, ⟨_, rfl, rfl, by decide, by decide, by decide⟩⟩

theorem test_witness_OnlySqrtRatioReadsOpb :
    ∃ t, Instr.erase ≠ .sqrtRatio ∧ exec .erase (busy 5 7 5 []) = .next t := ⟨_, by decide, rfl⟩

/-- The smallest operand that is not canonical, in either place. -/
theorem test_witness_SqrtRatioRejectsNonCanonicalOperands :
    P ≤ (busy (BitVec.ofNat 256 P) 0 1 []).opa.toNat ∧ P ≤ (busy 0 (BitVec.ofNat 256 P) 1 []).opb.toNat := by decide

/-- 4 over 1 has a root, 2 over 1 has none and a denominator other than 0, and 1 over 0 has none. -/
theorem test_witness_SqrtRatioFindsExactlyTheRoots :
    (busy 4 1 1 []).opa.toNat < P ∧ (busy 4 1 1 []).opb.toNat < P ∧
    (∃ x : Nat, (busy 4 1 1 []).opb.toNat * x ^ 2 % P = (busy 4 1 1 []).opa.toNat) ∧
    (¬ ∃ x : Nat, (busy 2 1 1 []).opb.toNat * x ^ 2 % P = (busy 2 1 1 []).opa.toNat) ∧ (busy 2 1 1 []).opb ≠ 0 ∧
    (busy 1 0 1 []).opb = 0 ∧ (¬ ∃ x : Nat, (busy 1 0 1 []).opb.toNat * x ^ 2 % P = (busy 1 0 1 []).opa.toNat) := by
  refine ⟨by decide, by decide, ⟨2, by decide⟩, ?_, by decide, rfl, ?_⟩
  · rintro ⟨x, hx⟩
    change 1 * x ^ 2 % P = 2 at hx
    have h := congrArg (fun n : Nat => (n : ZMod P)) hx
    simp only [ZMod.natCast_mod] at h
    push_cast at h
    exact not_isSquare_of_fpow 2 (by decide) (by decide) (by decide +kernel) ⟨x, by push_cast; linear_combination -1 * h⟩
  · rintro ⟨x, hx⟩
    change 0 * x ^ 2 % P = 1 at hx
    simp at hx

/-- spec/95 S9. -/
theorem test_witness_ThirdBranchCorrectsWithoutFound :
    rootOfMinusOne sqrtM1Ref ∧ 1 < P ∧ 2 < P ∧ (1 : Nat) ≠ 0 ∧ rootCheck 1 2 = fmul (fneg 1) sqrtM1Ref := by
  unfold rootOfMinusOne; decide +kernel

/-- The two roots; a ratio that is found, and spec/95 S8, one that is not. -/
theorem test_witness_RootChoiceShowsOnlyWhenNotFound :
    rootOfMinusOne sqrtM1Ref ∧ rootOfMinusOne (P - sqrtM1Ref) ∧ sqrtM1Ref ≠ P - sqrtM1Ref ∧ 4 < P ∧ 2 < P ∧ 1 < P ∧
    (sqrtRatioWith sqrtM1Ref 4 1).1 = true ∧ (sqrtRatioWith sqrtM1Ref 2 1).1 = false ∧ (1 : Nat) ≠ 0 := by
  unfold rootOfMinusOne; decide +kernel

theorem test_witness_ExactlyTwoRootsOfMinusOne : rootOfMinusOne sqrtM1Ref := by unfold rootOfMinusOne; decide +kernel

/-- The magnitude `P` without and with the sign bit. -/
theorem test_witness_DecompressRejectsLargeMagnitudes :
    P ≤ lowPart (busy (BitVec.ofNat 256 P) 0 2 []).opa ∧ P ≤ lowPart (busy (BitVec.ofNat 256 (P + 2 ^ 255)) 0 2 []).opa := by
  decide

/-- No `y` makes a point with `x = 1` (spec/95 D3): `2·(1 − D)` is no square. -/
theorem no_point_at_x_one : ¬ ∃ y : Nat, onCurve 1 y := by
  rintro ⟨y, hy⟩
  have h := congrArg (fun n : Nat => (n : ZMod P)) hy
  simp only [ZMod.natCast_mod] at h
  push_cast at h
  refine not_isSquare_of_fpow (2 * (1 + P - D) % P) (Nat.mod_lt _ P_pos) (by decide +kernel) (by decide +kernel)
    ⟨(1 - D) * y, ?_⟩
  rw [ZMod.natCast_mod, Nat.cast_mul, Nat.cast_sub (by decide)]
  push_cast
  rw [ZMod.natCast_self]
  linear_combination ((D : ZMod P) - 1) * h

/-- No `x` makes a point with `y = 2` (spec/95 K5): `3·(1 + 4·D)` is no square. -/
theorem no_point_at_y_two : ¬ ∃ x : Nat, onCurve x 2 := by
  rintro ⟨x, hx⟩
  have h := congrArg (fun n : Nat => (n : ZMod P)) hx
  simp only [ZMod.natCast_mod] at h
  push_cast at h
  refine not_isSquare_of_fpow (3 * (1 + 4 * D) % P) (Nat.mod_lt _ P_pos) (by decide +kernel) (by decide +kernel)
    ⟨(1 + 4 * D) * x, ?_⟩
  rw [ZMod.natCast_mod]
  push_cast
  linear_combination (1 + 4 * (D : ZMod P)) * h

/-- `x = 0` is on a point, `x = 1` on none. -/
theorem test_witness_DecompressFindsThePoint :
    lowPart (busy 0 0 2 []).opa < P ∧ (∃ y : Nat, onCurve (lowPart (busy 0 0 2 []).opa) y) ∧
    lowPart (busy 1 0 2 []).opa < P ∧ (¬ ∃ y : Nat, onCurve (lowPart (busy 1 0 2 []).opa) y) :=
  ⟨by decide, ⟨1, by unfold onCurve; decide⟩, by decide, no_point_at_x_one⟩

theorem test_witness_CompressRejectsLargeMagnitudes : P ≤ lowPart (busy (BitVec.ofNat 256 P) 0 3 []).opa := by decide

/-- `y = 1` is on a point. -/
theorem test_witness_CompressFindsThePoint :
    lowPart (busy 1 0 3 []).opa < P ∧ ∃ x : Nat, onCurve x (lowPart (busy 1 0 3 []).opa) :=
  ⟨by decide, 0, by unfold onCurve; decide⟩

/-- `y = 2` is on none. -/
theorem test_witness_CompressFaultsOffTheCurve :
    lowPart (busy 2 0 3 []).opa < P ∧ ¬ ∃ x : Nat, onCurve x (lowPart (busy 2 0 3 []).opa) :=
  ⟨by decide, no_point_at_y_two⟩

/-- The point of the source's vector V7 (spec/95 K9, D13). -/
theorem test_witness_CompressThenDecompressRoundTrip :
    0x5926e8ef8174e612648491acfcbf68d8b1326ac9f345cfe7b1d4276bbb66d9a3 < P ∧
    0x24ff154a54c0801ae54c8e3f9b3d1de308d0298d4286a6fdb2e358f76485e01e < P ∧
    onCurve 0x5926e8ef8174e612648491acfcbf68d8b1326ac9f345cfe7b1d4276bbb66d9a3
      0x24ff154a54c0801ae54c8e3f9b3d1de308d0298d4286a6fdb2e358f76485e01e ∧
    (busy 0xa4ff154a54c0801ae54c8e3f9b3d1de308d0298d4286a6fdb2e358f76485e01e 0 3 []).opa.toNat =
      0x24ff154a54c0801ae54c8e3f9b3d1de308d0298d4286a6fdb2e358f76485e01e +
      0x5926e8ef8174e612648491acfcbf68d8b1326ac9f345cfe7b1d4276bbb66d9a3 % 2 * 2 ^ 255 := by
  unfold onCurve; decide +kernel

/-- spec/95 D1, and D8b, where the sign bit is lost. -/
theorem test_witness_DecompressThenCompressRoundTrip :
    (∃ t, exec .decompress (busy 0 0 2 []) = .next t ∧ t.status.extractLsb' 4 3 = 1 ∧
      ¬ (rootOfMinusOne (lowPart (busy 0 0 2 []).opa) ∧ topBit (busy 0 0 2 []).opa)) ∧
    (∃ t, exec .decompress (busy (BitVec.ofNat 256 (sqrtM1Ref + 2 ^ 255)) 0 2 []) = .next t ∧
      t.status.extractLsb' 4 3 = 1 ∧
      rootOfMinusOne (lowPart (busy (BitVec.ofNat 256 (sqrtM1Ref + 2 ^ 255)) 0 2 []).opa) ∧
      topBit (busy (BitVec.ofNat 256 (sqrtM1Ref + 2 ^ 255)) 0 2 []).opa) :=
  ⟨⟨_, rfl, by decide +kernel, by unfold rootOfMinusOne topBit; decide +kernel⟩,
    ⟨_, rfl, by decide +kernel, by unfold rootOfMinusOne; decide +kernel, by unfold topBit; decide +kernel⟩⟩

/-- The ends of each clause's range: the flag bit alone and with everything set; `P` and `2^255 − 1`; 0 and `P − 1`. -/
theorem test_witness_LegacyConvertResult :
    topBit (busy (BitVec.ofNat 256 (2 ^ 255)) 0 4 []).opa ∧ topBit (busy (BitVec.ofNat 256 (2 ^ 256 - 1)) 0 4 []).opa ∧
    (∀ n ∈ [P, 2 ^ 255 - 1], ¬ topBit (busy (BitVec.ofNat 256 n) 0 4 []).opa ∧
      P - 1 < (busy (BitVec.ofNat 256 n) 0 4 []).opa.toNat) ∧
    (∀ n ∈ [0, P - 1], (busy (BitVec.ofNat 256 n) 0 4 []).opa.toNat ≤ P - 1) := by unfold topBit; decide

theorem test_witness_LegacyConvertIsABijection :
    (busy 0 0 4 []).opa = 0 ∧ (busy (BitVec.ofNat 256 (P - 1)) 0 4 []).opa.toNat = P - 1 ∧
    (∃ t t', (busy 0 0 4 []).opa.toNat < P ∧ (busy 0 9 4 []).opa.toNat < P ∧
      exec .legacyConvert (busy 0 0 4 []) = .next t ∧ exec .legacyConvert (busy 0 9 4 []) = .next t' ∧ t.res = t'.res) ∧
    P - 1 < P := ⟨rfl, by decide, ⟨_, _, by decide, by decide, rfl, rfl, rfl⟩, by decide⟩

theorem test_witness_EraseForgetsTheDataRegisters :
    ∃ t t', (busy 8 9 5 []).status = (busy 5 7 5 []).status ∧ (busy 8 9 5 []).cmdr = (busy 5 7 5 []).cmdr ∧
      (busy 8 9 5 []).power = (busy 5 7 5 []).power ∧ exec .erase (busy 5 7 5 []) = .next t ∧
      exec .erase (busy 8 9 5 []) = .next t' := ⟨_, _, rfl, rfl, rfl, rfl, rfl⟩

theorem test_witness_CommandsOnErasedRegisters : (busy 1 1 2 []).opa = 1 ∧ (busy 1 1 2 []).opb = 1 := by decide

theorem test_witness_NonNegativeRepresentative : (0 : Nat) < P ∧ 1 < P ∧ P - 1 < P := by decide

/-- The ends of the range, and a product that is 1. -/
theorem test_witness_InverseIsTheUniqueInverse : 0 < 1 ∧ 1 < P ∧ 0 < P - 1 ∧ P - 1 < P ∧ fmul (P - 1) (P - 1) = 1 := by decide

end Sys2Proof.Tests
end

section
/-! Square roots in the field, the two square roots of −1, and the denominators that `sqrt_ratio` is handed. -/
namespace Sys2Proof.Proofs

open Sys2Proof.Machine Sys2Proof.Config Sys2Proof.Safety Sys2Proof.Laws

/-! ## Signs and square roots of canonical representatives -/

theorem fneg_eq_sub (a : Nat) (ha : 0 < a) : fneg a = P - a :=
  Nat.mod_eq_of_lt (Nat.sub_lt P_pos ha)

/-- As `P` is odd, negation changes the parity of everything but 0. -/
theorem fneg_parity (a : Nat) (h0 : 0 < a) (ha : a < P) : fneg a % 2 ≠ a % 2 := by
  have hodd := P_odd
  rw [fneg_eq_sub a h0]
  omega

/-- spec/41 R137: the absolute value is the non-negative one, the one whose bit 0 is clear. -/
theorem fabs_even (a : Nat) (ha : a < P) : fabs a % 2 = 0 := by
  rcases fabs_cases a with ⟨hneg, habs⟩ | ⟨hneg, habs⟩ <;> simp only [isneg, beq_iff_eq, beq_eq_false_iff_ne] at hneg
  · have hparity := fneg_parity a (by omega) ha
    omega
  · omega

/-- spec/42 R156. -/
theorem sqrtRatioWith_even (i u v : Nat) : (sqrtRatioWith i u v).2 % 2 = 0 :=
  fabs_even _ (rootCorrected_lt i u v)

/-- A field element has at most two square roots, each the negation of the other. -/
theorem eq_or_eq_fneg_of_sq_eq (a b : Nat) (ha : a < P) (hb : b < P) (h : (a : ZMod P) ^ 2 = (b : ZMod P) ^ 2) :
    a = b ∨ a = fneg b := by
  have := fact_prime_P
  rcases sq_eq_sq_iff_eq_or_eq_neg.1 h with h | h
  · exact .inl (eq_of_cast_eq a b ha hb h)
  · exact .inr (eq_of_cast_eq a _ ha (fneg_lt b) (by rw [h, cast_fneg b hb.le]))

/-- The non-negative square root is unique. -/
theorem eq_of_sq_eq_of_even (a b : Nat) (ha : a < P) (hb : b < P) (ha2 : a % 2 = 0) (hb2 : b % 2 = 0)
    (h : (a : ZMod P) ^ 2 = (b : ZMod P) ^ 2) : a = b := by
  rcases eq_or_eq_fneg_of_sq_eq a b ha hb h with hab | hab
  · exact hab
  · rcases Nat.eq_zero_or_pos b with rfl | hpos
    · simpa [fneg] using hab
    · exact absurd (by rw [← hab, ha2, hb2]) (fneg_parity b hpos hb)

/-! ## The square roots of −1 (spec/00 R9) -/

theorem rootOfMinusOne_iff (i : Nat) : rootOfMinusOne i ↔ i < P ∧ (i : ZMod P) ^ 2 = -1 := by
  refine and_congr_right fun _ => ⟨cast_root_sq i, fun h => ?_⟩
  refine eq_of_cast_eq _ _ (Nat.mod_lt _ P_pos) (Nat.sub_lt P_pos one_pos) ?_
  rw [ZMod.natCast_mod, Nat.cast_mul, cast_P_sub_one, ← h, sq]

theorem rootOfMinusOne_pos (i : Nat) (hi : rootOfMinusOne i) : 0 < i := by
  refine Nat.pos_of_ne_zero fun h0 => ?_
  subst h0
  exact absurd hi.2 (by norm_num [P])

theorem rootOfMinusOne_fneg (i : Nat) (hi : rootOfMinusOne i) : rootOfMinusOne (fneg i) := by
  obtain ⟨hlt, hsq⟩ := (rootOfMinusOne_iff i).1 hi
  exact (rootOfMinusOne_iff _).2 ⟨fneg_lt i, by rw [cast_fneg i hlt.le, neg_sq, hsq]⟩

/-- Settles O36: `blockSqrtM1_spec` gives one root, its negation is another, and there are no more than two. -/
theorem exactlyTwoRootsOfMinusOne : Obligations.ExactlyTwoRootsOfMinusOne := by
  have hblock : rootOfMinusOne blockSqrtM1 := blockSqrtM1_spec
  have hsub := fneg_eq_sub blockSqrtM1 (rootOfMinusOne_pos _ hblock)
  refine ⟨hblock, hsub ▸ rootOfMinusOne_fneg _ hblock, fun x hx => ?_⟩
  obtain ⟨hxlt, hxsq⟩ := (rootOfMinusOne_iff x).1 hx
  obtain ⟨hblt, hbsq⟩ := (rootOfMinusOne_iff _).1 hblock
  rw [← hsub]
  exact eq_or_eq_fneg_of_sq_eq x _ hxlt hblt (hxsq.trans hbsq.symm)

/-! ## Where the choice of the root of −1 shows (spec/42 R160) -/

/-- A root that is found is a non-negative root of the ratio, and there is only one. -/
theorem sqrtRatioWith_root_eq_of_found (i j u v : Nat) (hi : rootOfMinusOne i) (hj : rootOfMinusOne j) (hu : u < P)
    (hfi : (sqrtRatioWith i u v).1 = true) (hfj : (sqrtRatioWith j u v).1 = true) :
    (sqrtRatioWith i u v).2 = (sqrtRatioWith j u v).2 := by
  have := fact_prime_P
  by_cases hu0 : (u : ZMod P) = 0
  · rw [(sqrtRatioWith_zero_left i u v hu hu0).2, (sqrtRatioWith_zero_left j u v hu hu0).2]
  have hri := sqrtRatioWith_of_found i u v hi.2 hu hfi
  have hrj := sqrtRatioWith_of_found j u v hj.2 hu hfj
  have hv0 : (v : ZMod P) ≠ 0 := fun hv0 => hu0 (by rw [← hri, hv0, zero_mul])
  exact eq_of_sq_eq_of_even _ _ (sqrtRatioWith_lt i u v) (sqrtRatioWith_lt j u v) (sqrtRatioWith_even i u v)
    (sqrtRatioWith_even j u v) (mul_left_cancel₀ hv0 (hri.trans hrj.symm))

/-- A root that is not found is a root of `SQRT_M1` times the ratio, so it tells the two square roots of −1 apart. -/
theorem sqrtRatioWith_root_ne_of_not_found (i j u v : Nat) (hi : rootOfMinusOne i) (hj : rootOfMinusOne j)
    (hij : i ≠ j) (hu : u < P) (hv : (v : ZMod P) ≠ 0) (hfi : (sqrtRatioWith i u v).1 = false)
    (hfj : (sqrtRatioWith j u v).1 = false) : (sqrtRatioWith i u v).2 ≠ (sqrtRatioWith j u v).2 := by
  have := fact_prime_P
  intro heq
  have hu0 : (u : ZMod P) ≠ 0 := fun hu0 => by
    simp [(sqrtRatioWith_zero_left i u v hu hu0).1] at hfi
  have hiu_eq_ju : (i : ZMod P) * u = j * u := by
    rw [← sqrtRatioWith_of_not_found i u v hi.2 hu hv hfi, heq, sqrtRatioWith_of_not_found j u v hj.2 hu hv hfj]
  exact hij (eq_of_cast_eq i j hi.1 hj.1 (mul_right_cancel₀ hu0 hiu_eq_ju))

/-- Settles O35: neither comparison that the found bit is made of takes the root of −1, and the two lemmas above say the
rest. -/
theorem rootChoiceShowsOnlyWhenNotFound : Obligations.RootChoiceShowsOnlyWhenNotFound := by
  intro i j u v hi hj hij hu hv
  have hfound : (sqrtRatioWith i u v).1 = (sqrtRatioWith j u v).1 := rfl
  refine ⟨hfound, fun hf => ?_, fun hf hv0 => ?_⟩
  · exact sqrtRatioWith_root_eq_of_found i j u v hi hj hu hf (hfound ▸ hf)
  · exact sqrtRatioWith_root_ne_of_not_found i j u v hi hj hij hu ((cast_eq_zero_iff v hv).not.2 hv0) hf (hfound ▸ hf)

/-! ## The denominators of DECOMPRESS and COMPRESS (spec/43 R174, spec/44 R186) -/

/-- `D` times a square is no square but 0, because `D` is a non-residue (spec/00 R8). -/
theorem D_mul_sq_ne_sq (x c : ZMod P) (hc : c ≠ 0) : (D : ZMod P) * x ^ 2 ≠ c ^ 2 := by
  have := fact_prime_P
  intro h
  have hx : x ≠ 0 := by
    rintro rfl
    exact pow_ne_zero 2 hc (by rw [← h]; ring)
  refine D_nonresidue ⟨c / x, ?_⟩
  field_simp
  exact h

theorem decompressDenominator_ne_zero (x : Nat) : fsub (fmul D (fsq x)) 1 ≠ 0 := by
  have := fact_prime_P
  intro h
  have hcast := cast_fsub (fmul D (fsq x)) 1 prime_P.one_le
  rw [h, cast_fmul, cast_fsq, Nat.cast_zero, Nat.cast_one] at hcast
  exact D_mul_sq_ne_sq x 1 one_ne_zero (by linear_combination -hcast)

/-- −1 is a square, so `d·y²` is not −1 either. -/
theorem compressDenominator_ne_zero (y : Nat) : fadd (fmul D (fsq y)) 1 ≠ 0 := by
  have := fact_prime_P
  have hroot := cast_root_sq blockSqrtM1 blockSqrtM1_spec.2
  have hroot0 : (blockSqrtM1 : ZMod P) ≠ 0 := by
    intro h0
    simp [h0] at hroot
  intro h
  have hcast := cast_fadd (fmul D (fsq y)) 1
  rw [h, cast_fmul, cast_fsq, Nat.cast_zero, Nat.cast_one] at hcast
  exact D_mul_sq_ne_sq y blockSqrtM1 hroot0 (by linear_combination -hcast - hroot)

/-- Settles O39: a denominator of 0 would make `D` times a square equal to 1 or to −1, which are squares. -/
theorem denominatorsAreNeverZero : Obligations.DenominatorsAreNeverZero :=
  ⟨fun _ x => ⟨_, rfl, decompressDenominator_ne_zero x, rfl⟩,
   fun _ y => ⟨_, rfl, compressDenominator_ne_zero y, rfl⟩⟩

end Sys2Proof.Proofs
end

section
/-! The state of the block: the words of `STATUS`, the reset state, what a step can do to each register, and the invariant that
every step keeps. -/
namespace Sys2Proof.Proofs

open Sys2Proof.Machine Sys2Proof.Config Sys2Proof.Safety Sys2Proof.Laws

/-! ## The words of STATUS (spec/10 R26 to R30) -/

/-- The clauses of spec/10 R30 on a status word, field by field. -/
def meetsStatusClauses (st : Word) : Prop :=
  ¬ (st.getLsbD 0 = true ∧ st.getLsbD 1 = true) ∧
  ¬ (st.getLsbD 0 = true ∧ st.getLsbD 3 = true) ∧
  (st.getLsbD 3 = true ↔ st.extractLsb' 4 3 = 7) ∧
  (st.extractLsb' 4 3 ≠ 0 ↔ st.getLsbD 1 = true) ∧
  (st.extractLsb' 4 3 = 3 → st.extractLsb' 8 5 = 31 ∧ st.extractLsb' 13 3 = 7) ∧
  (st.extractLsb' 4 3 ≠ 3 → st.extractLsb' 8 5 = 0 ∧ st.extractLsb' 13 3 = 0) ∧
  st.extractLsb' 4 3 ≠ 6 ∧
  st.getLsbD 2 = false ∧ st.getLsbD 7 = false ∧ st.extractLsb' 16 16 = 0

/-- Words that agree in a slice agree in each bit of it. -/
theorem getLsbD_eq_of_extractLsb'_eq {n : Nat} {x y : BitVec n} {lo len : Nat}
    (h : x.extractLsb' lo len = y.extractLsb' lo len) (i : Nat) (hlo : lo ≤ i) (hhi : i < lo + len) :
    x.getLsbD i = y.getLsbD i := by
  have hbit := congrArg (BitVec.getLsbD · (i - lo)) h
  have hlen : i - lo < len := by omega
  simpa [hlen, Nat.add_sub_cancel' hlo] using hbit

/-- The fields of spec/10 R26, the reserved ones included, make up the whole word. -/
theorem status_ext {st st' : Word} (hbusy : st.getLsbD 0 = st'.getLsbD 0) (hdone : st.getLsbD 1 = st'.getLsbD 1)
    (hreserved2 : st.getLsbD 2 = st'.getLsbD 2) (hfault : st.getLsbD 3 = st'.getLsbD 3)
    (houtcome : st.extractLsb' 4 3 = st'.extractLsb' 4 3) (hreserved7 : st.getLsbD 7 = st'.getLsbD 7)
    (herrByte : st.extractLsb' 8 5 = st'.extractLsb' 8 5) (herrBit : st.extractLsb' 13 3 = st'.extractLsb' 13 3)
    (hreserved16 : st.extractLsb' 16 16 = st'.extractLsb' 16 16) : st = st' := by
  apply BitVec.eq_of_getLsbD_eq
  intro i hi
  by_cases h4 : i < 4
  · interval_cases i <;> assumption
  by_cases h7 : i < 7
  · exact getLsbD_eq_of_extractLsb'_eq houtcome i (by omega) (by omega)
  by_cases h8 : i < 8
  · obtain rfl : i = 7 := by omega
    exact hreserved7
  by_cases h13 : i < 13
  · exact getLsbD_eq_of_extractLsb'_eq herrByte i (by omega) (by omega)
  by_cases h16 : i < 16
  · exact getLsbD_eq_of_extractLsb'_eq herrBit i (by omega) (by omega)
  · exact getLsbD_eq_of_extractLsb'_eq hreserved16 i (by omega) (by omega)

/-- By the clauses, `BUSY` and `OUTCOME` determine every other field. -/
theorem eq_of_meetsStatusClauses {st st' : Word} (h : meetsStatusClauses st) (h' : meetsStatusClauses st')
    (hbusy : st.getLsbD 0 = st'.getLsbD 0) (houtcome : st.extractLsb' 4 3 = st'.extractLsb' 4 3) : st = st' := by
  obtain ⟨-, -, hfault, hdone, hflag, hnoflag, -, hr2, hr7, hr16⟩ := h
  obtain ⟨-, -, hfault', hdone', hflag', hnoflag', -, hr2', hr7', hr16'⟩ := h'
  rw [← houtcome] at hfault' hdone' hflag' hnoflag'
  have hposition : st.extractLsb' 8 5 = st'.extractLsb' 8 5 ∧ st.extractLsb' 13 3 = st'.extractLsb' 13 3 := by
    by_cases h3 : st.extractLsb' 4 3 = 3
    · rw [(hflag h3).1, (hflag h3).2, (hflag' h3).1, (hflag' h3).2]
      exact ⟨rfl, rfl⟩
    · rw [(hnoflag h3).1, (hnoflag h3).2, (hnoflag' h3).1, (hnoflag' h3).2]
      exact ⟨rfl, rfl⟩
  exact status_ext hbusy (Bool.eq_iff_iff.2 (hdone.symm.trans hdone')) (hr2.trans hr2'.symm)
    (Bool.eq_iff_iff.2 (hfault.trans hfault'.symm)) houtcome (hr7.trans hr7'.symm) hposition.1 hposition.2
    (hr16.trans hr16'.symm)

theorem legalStatus_meetsClauses {st : Word} (h : legalStatus st) : meetsStatusClauses st := by
  unfold meetsStatusClauses
  rcases h with rfl | rfl | rfl | rfl | rfl | rfl | rfl | rfl <;> decide

/-- Among the eight words is one for each `OUTCOME` but 6, and the busy word. -/
theorem exists_legalStatus (busy : Bool) (outcome : BitVec 3) (hbusy : busy = true → outcome = 0) (h6 : outcome ≠ 6) :
    ∃ st, legalStatus st ∧ st.getLsbD 0 = busy ∧ st.extractLsb' 4 3 = outcome := by
  cases busy with
  | true =>
    obtain rfl := hbusy rfl
    exact ⟨0x00000001, by simp [legalStatus], by decide⟩
  | false =>
    have hcodes : ∀ o : BitVec 3, o ≠ 6 → o = 0 ∨ o = 1 ∨ o = 2 ∨ o = 3 ∨ o = 4 ∨ o = 5 ∨ o = 7 := by decide
    rcases hcodes outcome h6 with rfl | rfl | rfl | rfl | rfl | rfl | rfl
    · exact ⟨0x00000000, by simp [legalStatus], by decide⟩
    · exact ⟨0x00000012, by simp [legalStatus], by decide⟩
    · exact ⟨0x00000022, by simp [legalStatus], by decide⟩
    · exact ⟨0x0000FF32, by simp [legalStatus], by decide⟩
    · exact ⟨0x00000042, by simp [legalStatus], by decide⟩
    · exact ⟨0x00000052, by simp [legalStatus], by decide⟩
    · exact ⟨0x0000007A, by simp [legalStatus], by decide⟩

theorem legalStatus_iff_meetsClauses (st : Word) : legalStatus st ↔ meetsStatusClauses st := by
  refine ⟨legalStatus_meetsClauses, fun h => ?_⟩
  have ⟨hbusyDone, _, _, hdone, _, _, h6, _⟩ := h
  have hbusy : st.getLsbD 0 = true → st.extractLsb' 4 3 = 0 := fun hb =>
    not_not.1 fun ho => hbusyDone ⟨hb, hdone.1 ho⟩
  obtain ⟨st', hlegal, hb, ho⟩ := exists_legalStatus _ _ hbusy h6
  rwa [eq_of_meetsStatusClauses h (legalStatus_meetsClauses hlegal) hb.symm ho.symm]

/-- The mask of the reserved bits takes nothing from a legal word. -/
theorem statusRead_legal {st : Word} (h : legalStatus st) : statusRead st = st := by
  rcases h with rfl | rfl | rfl | rfl | rfl | rfl | rfl | rfl <;> decide

/-- Settles O9: each of the eight words meets the clauses, and a word that meets them is the one of the eight with its
`BUSY` and `OUTCOME`. -/
theorem statusWordsAreExactlyTheLegalOnes : Obligations.StatusWordsAreExactlyTheLegalOnes :=
  fun st => ⟨legalStatus_iff_meetsClauses st, statusRead_legal⟩

/-- Issue in phase `IDLE` leaves the busy word (spec/40 R103). -/
theorem issuedStatus_of_legal_idle {st : Word} (h : legalStatus st) (hidle : phaseOf st = .idle) : issuedStatus st = 1 := by
  rcases h with rfl | rfl | rfl | rfl | rfl | rfl | rfl | rfl <;> revert hidle <;> decide

/-! ## What a command, an access and the engine's turn do to the registers -/

@[simp] theorem endingBase_res (i : Instr) (s : State) : (endingBase i s).res = s.res := by cases i <;> rfl
@[simp] theorem endingBase_status (i : Instr) (s : State) : (endingBase i s).status = s.status := by cases i <;> rfl
@[simp] theorem endingBase_cmdr (i : Instr) (s : State) : (endingBase i s).cmdr = s.cmdr := by cases i <;> rfl
@[simp] theorem endingBase_power (i : Instr) (s : State) : (endingBase i s).power = s.power := by cases i <;> rfl
@[simp] theorem endingBase_losses (i : Instr) (s : State) : (endingBase i s).losses = s.losses := by cases i <;> rfl
@[simp] theorem endingBase_host (i : Instr) (s : State) : (endingBase i s).host = s.host := by cases i <;> rfl
@[simp] theorem endingBase_replies (i : Instr) (s : State) : (endingBase i s).replies = s.replies := by cases i <;> rfl

/-- Settles O29: the end of a command writes `RES` and `STATUS`, and only the base of `ERASE` differs from the state. -/
theorem onlyEraseWritesTheOperands : Obligations.OnlyEraseWritesTheOperands := by
  intro i s
  refine ⟨_, exec_eq i s, ?_⟩
  have hsame : i ≠ .erase → sameButResult s (finish (endingOf i s) (endingBase i s)) := fun hi => by
    simp [sameButResult, endingBase_of_ne_erase i s hi]
  simpa using hsame

/-- The result is the ending's own. -/
theorem finish_res_eq (e : Ending) (s s' : State) : (finish e s').res = (finish e s).res := by cases e <;> rfl

/-- Of the state below it, an ending's `STATUS` depends on the old `STATUS` alone. -/
theorem finish_status_eq (e : Ending) {s s' : State} (h : s'.status = s.status) :
    (finish e s').status = (finish e s).status := by
  cases e with
  | complete o r eb bt => exact congrArg (completedStatus o eb bt) h
  | raise c => exact congrArg faultStatus h

theorem endingOf_opb (i : Instr) (s : State) (b : Buf) (hi : i ≠ .sqrtRatio) :
    endingOf i { s with opb := b } = endingOf i s := by
  cases i with
  | sqrtRatio => exact absurd rfl hi
  | decompress | compress | legacyConvert | erase => rfl

theorem endingBase_opb_opa (i : Instr) (s : State) (b : Buf) :
    (endingBase i { s with opb := b }).opa = (endingBase i s).opa := by cases i <;> rfl

/-- Settles O30: no ending but that of `SQRT_RATIO` is made from `OPB`. -/
theorem onlySqrtRatioReadsOpb : Obligations.OnlySqrtRatioReadsOpb := by
  intro i s t b hi ht
  rw [exec_eq] at ht
  cases ht
  refine ⟨_, exec_eq i _, ?_⟩
  rw [endingOf_opb i s b hi]
  exact ⟨by simp [endingBase_opb_opa], finish_res_eq _ _ _, finish_status_eq _ (by simp), by simp⟩

/-- What an accepted access can do: answer a word, nothing, issue a command, or write one operand word (spec/20 R55, R56). -/
theorem performAccess_cases (a : Access) (s : State) (h : a.wf = true) :
    (∃ w, performAccess a s = answer w s) ∨
    performAccess a s = s ∨
    (phase s = .idle ∧ ∃ w, a = ⟨.write w, 0, 4⟩ ∧ performAccess a s = issue w s) ∨
    (phase s = .idle ∧ ∃ (k : Fin 8) (w : Word), a = ⟨.write w, 0x20 + 4 * k.val, 4⟩ ∧
      performAccess a s = { s with opa := setWord s.opa k w }) ∨
    (phase s = .idle ∧ ∃ (k : Fin 8) (w : Word), a = ⟨.write w, 0x40 + 4 * k.val, 4⟩ ∧
      performAccess a s = { s with opb := setWord s.opb k w }) := by
  obtain ⟨kind, off, width⟩ := a
  obtain ⟨hoff, hwidth, haligned⟩ := (access_wf_iff _).1 h
  dsimp only at hoff hwidth haligned
  subst hwidth
  cases kind with
  | read => exact .inl ⟨_, rfl⟩
  | write w =>
    have hport := portOf_cases off hoff haligned
    rcases writePort_cases (portOf off) w s with hw | ⟨hidle, hp, hw⟩ | ⟨hidle, k, hp, hw⟩ | ⟨hidle, k, hp, hw⟩
    · exact .inr (.inl hw)
    · obtain rfl : off = 0 := by simpa [hp] using hport
      exact .inr (.inr (.inl ⟨hidle, w, rfl, hw⟩))
    · obtain rfl : off = 0x20 + 4 * k.val := by simpa [hp] using hport
      exact .inr (.inr (.inr (.inl ⟨hidle, k, w, rfl, hw⟩)))
    · obtain rfl : off = 0x40 + 4 * k.val := by simpa [hp] using hport
      exact .inr (.inr (.inr (.inr ⟨hidle, k, w, rfl, hw⟩)))

theorem opcodeInstr_eq_ok {op : Nat} {i : Instr} (h : opcodeInstr op = .ok i) : op = (encode i).toNat := by
  unfold opcodeInstr at h
  split at h <;> cases h <;> rfl

/-- The decoder gives a command for its own word only (spec/30 R71, R74). -/
theorem eq_encode_of_decode {w : Word} {i : Instr} (h : decode w = .ok i) : w = encode i := by
  unfold decode at h
  split at h
  · cases h
  · rename_i hzero
    have hopcode := opcodeInstr_eq_ok h
    have hzeroNat : (zeroField w).toNat = 0 := by simp [not_not.1 hzero]
    simp only [zeroField, opcodeField, BitVec.extractLsb'_toNat, Nat.shiftRight_eq_div_pow] at hzeroNat hopcode
    apply BitVec.eq_of_toNat_eq
    omega

/-- What the engine's turn can write: nothing; or, in phase `BUSY`, `RES`, and the operands with the word of `ERASE` held. -/
theorem engineTurn_registers {s t : State} (h : engineTurn exec s = .next t) :
    t = s ∨ (phase s = .busy ∧ (s.cmdr = 5 ∨ (t.opa = s.opa ∧ t.opb = s.opb))) := by
  rcases engineTurn_next s t h with ⟨-, hbusy, i, hi, rfl⟩ | ⟨-, hbusy, -, rfl⟩ | ⟨-, rfl⟩
  · refine .inr ⟨hbusy, ?_⟩
    by_cases he : i = .erase
    · subst he
      exact .inl (eq_encode_of_decode hi)
    · exact .inr (by simp [endingBase_of_ne_erase i s he])
  · exact .inr ⟨hbusy, .inr ⟨rfl, rfl⟩⟩
  · exact .inl rfl

/-- The next step is the engine's: at an `ENGINE` mark, or when nothing is scheduled (log entry 2). -/
def engineNext (s : State) : Prop := s.host = [] ∨ ∃ rest, s.host = .engine :: rest

/-- What one step can do, with the two ways to the engine's turn taken together. -/
theorem step_cases {s t : State} (h : step s = .next t) :
    (engineNext s ∧ ∃ rest, engineTurn exec (withHost rest s) = .next t) ∨
    (∃ a rest, s.host = .access a :: rest ∧ s.power = .ready ∧ a.wf = true ∧ t = performAccess a (withHost rest s)) ∨
    (∃ d rest, s.host = .reset d :: rest ∧ t = resetBlock (withHost rest s)) ∨
    (∃ rest, s.host = .powerLoss :: rest ∧ t = losePower (withHost rest s)) := by
  rcases step_next s t h with ⟨hhost, hturn⟩ | ⟨rest, hhost, hturn⟩ | hrest
  · exact .inl ⟨.inl hhost, s.host, hturn⟩
  · exact .inl ⟨.inr ⟨rest, hhost⟩, rest, hturn⟩
  · exact .inr hrest

/-- Settles O27: a step that changes a register is the write, the completion or the reset named for it; in every other case
the register is as it was. -/
theorem registersChangeOnlyAsStated : Obligations.RegistersChangeOnlyAsStated := by
  intro s t _ ht hstep
  rcases step_cases hstep with ⟨hengine, rest, hturn⟩ | ⟨a, rest, hhost, -, hwf, rfl⟩ | ⟨d, rest, hhost, -⟩ |
    ⟨rest, -, rfl⟩
  · rcases engineTurn_registers hturn with rfl | ⟨hbusy, hoperands⟩
    · simp
    · exact ⟨fun hopa => .inr (.inl ⟨hbusy, hoperands.resolve_right fun hsame => hopa hsame.1, hengine⟩),
        fun hopb => .inr (.inl ⟨hbusy, hoperands.resolve_right fun hsame => hopb hsame.2, hengine⟩),
        fun _ => .inr (.inl ⟨hbusy, hengine⟩)⟩
  · rcases performAccess_cases a (withHost rest s) hwf with ⟨w, hq⟩ | hq | ⟨hidle, w, rfl, hq⟩ |
      ⟨hidle, k, w, rfl, hq⟩ | ⟨hidle, k, w, rfl, hq⟩ <;> rw [hq]
    · simp
    · simp
    · exact ⟨fun h => absurd rfl h, fun h => absurd rfl h, fun _ => .inl ⟨hidle, w, rest, hhost⟩⟩
    · exact ⟨fun _ => .inl ⟨hidle, k, w, rest, hhost⟩, fun h => absurd rfl h, fun h => absurd rfl h⟩
    · exact ⟨fun h => absurd rfl h, fun _ => .inl ⟨hidle, k, w, rest, hhost⟩, fun h => absurd rfl h⟩
  · have hreset : ∃ d rest, s.host = .reset d :: rest := ⟨d, rest, hhost⟩
    exact ⟨fun _ => .inr (.inr hreset), fun _ => .inr (.inr hreset), fun _ => .inr (.inr hreset)⟩
  · cases ht

/-! ## The reset state (spec/10 R36) -/

/-- Settles O4. -/
theorem resetStateValues : Obligations.ResetStateValues :=
  ⟨reset_opa, reset_opb, reset_res, reset_status, reset_cmdr, by decide, rfl⟩

/-! ## The invariant: what makes a state meet it, one lemma per kind of status word -/

theorem inv_of_res_zero {s : State} (hlegal : legalStatus s.status) (hres : s.res = 0) : Inv s := fun _ => by
  have hP := P_pos
  simp [hlegal, hres, hP]

theorem inv_of_ok {s : State} (hst : s.status = 0x00000012) (hres : lowPart s.res < P) : Inv s := fun _ => by
  rw [hst]
  exact ⟨by simp [legalStatus], fun h => absurd rfl h, fun _ => hres, fun h => absurd h (by decide)⟩

theorem inv_of_negative {s : State} (hst : s.status = 0x00000022) (hlt : s.res.toNat < P) (heven : s.res.toNat % 2 = 0) :
    Inv s := fun _ => by
  rw [hst]
  exact ⟨by simp [legalStatus], fun _ h => absurd rfl h, fun h => absurd h (by decide), fun _ => ⟨hlt, heven⟩⟩

/-- In phase `BUSY` the invariant leaves one word for each of `STATUS` and `RES` (spec/10 R34). -/
theorem status_and_res_of_inv_busy {s : State} (h : Inv s) (hp : s.power = .ready) (hbusy : phase s = .busy) :
    s.status = 1 ∧ s.res = 0 := by
  obtain ⟨hlegal, hzero, -, -⟩ := h hp
  have hst : s.status = 1 := (phaseOf_legal _ hlegal).1.1 hbusy
  exact ⟨hst, hzero (by rw [hst]; decide) (by rw [hst]; decide)⟩

/-- Settles O7. -/
theorem resetMeetsInvariant : Obligations.ResetMeetsInvariant := inv_of_res_zero (.inl rfl) rfl

/-! ## The endings of the commands -/

/-- The endings the invariant allows: with `OK` the low part of the result is canonical (spec/30 R80), with `NEGATIVE` the whole
result is, and even (spec/42 R160, spec/43 R172), and an error's result is 0, its position that of R29. -/
inductive AllowedEnding : Ending → Prop where
  | ok (r : Buf) (hlow : lowPart r < P) : AllowedEnding (.complete .ok r 0 0)
  | negative (r : Buf) (hlt : r.toNat < P) (heven : r.toNat % 2 = 0) : AllowedEnding (.complete .negative r 0 0)
  | errFlag : AllowedEnding (.complete .errFlag 0 31 7)
  | errRange : AllowedEnding (.complete .errRange 0 0 0)
  | errIllegal : AllowedEnding (.complete .errIllegal 0 0 0)
  | raise (c : FaultCause) : AllowedEnding (.raise c)

/-- A completion from the busy word leaves the word of its outcome (spec/10 R30, spec/40 R106). -/
theorem AllowedEnding.inv_finish {e : Ending} (he : AllowedEnding e) {s : State} (hst : s.status = 1) : Inv (finish e s) := by
  cases he with
  | ok r hlow => exact inv_of_ok (by simp only [finish, complete_status, hst]; decide) hlow
  | negative r hlt heven => exact inv_of_negative (by simp only [finish, complete_status, hst]; decide) hlt heven
  | errFlag => exact inv_of_res_zero (by simp only [finish, complete_status, hst, legalStatus]; decide) rfl
  | errRange => exact inv_of_res_zero (by simp only [finish, complete_status, hst, legalStatus]; decide) rfl
  | errIllegal => exact inv_of_res_zero (by simp only [finish, complete_status, hst, legalStatus]; decide) rfl
  | raise c => exact inv_of_res_zero (by simp only [finish, raiseFault_status, hst, legalStatus]; decide) rfl

/-- The flag of an assembled result is above its low part. -/
theorem lowPart_assemble (a : Nat) (f : Bool) (ha : a < P) : lowPart (assemble a f) = a := by
  have hP := P_lt
  rw [lowPart, toNat_assemble a f ha]
  split <;> omega

theorem lowPart_fenc (a : Nat) (ha : a < P) : lowPart (fenc a) = a := by
  rw [lowPart, toNat_fenc a ha, Nat.mod_eq_of_lt (ha.trans P_lt)]

theorem sqrtRatioEnding_allowed (i : Nat) (a b : Buf) : AllowedEnding (sqrtRatioEnding i a b) := by
  unfold sqrtRatioEnding
  split
  · rename_i u v _ _
    have hlt := sqrtRatioWith_lt i u v
    split
    · exact .ok _ (by rwa [lowPart_fenc _ hlt])
    · exact .negative _ (by rwa [toNat_fenc _ hlt]) (by rw [toNat_fenc _ hlt]; exact sqrtRatioWith_even i u v)
  · exact .errRange

theorem decompressEnding_allowed (i : Nat) (a : Buf) : AllowedEnding (decompressEnding i a) := by
  unfold decompressEnding
  split
  · rename_i sign x _
    have hlt : cneg sign (decompressRoot i x).2 < P := cneg_lt _ _ (sqrtRatioWith_lt _ _ _)
    split
    · exact .ok _ (by rwa [lowPart_assemble _ _ hlt])
    · exact .negative _ P_pos rfl
  · exact .errRange

theorem compressEnding_allowed (i : Nat) (a : Buf) : AllowedEnding (compressEnding i a) := by
  unfold compressEnding
  split
  · rename_i sx y _
    have hlt : cneg sx (compressRoot i y).2 < P := cneg_lt _ _ (sqrtRatioWith_lt _ _ _)
    split
    · exact .ok _ (by rwa [lowPart_assemble _ _ hlt])
    · exact .raise _
  · exact .errRange

/-- The two checks of format `LX32` (spec/45 R190). -/
theorem decodeLX32_error {b : Buf} {e : OutcomeCode} (h : decodeLX32 b = .error e) : e = .errFlag ∨ e = .errRange := by
  unfold decodeLX32 at h
  split at h
  · cases h; exact .inl rfl
  · split at h <;> cases h
    exact .inr rfl

theorem legacyConvertEnding_allowed (iso : Nat) (a : Buf) : AllowedEnding (legacyConvertEnding iso a) := by
  unfold legacyConvertEnding
  split
  · exact .ok _ (by rw [lowPart_assemble _ _ (fmul_lt _ _)]; exact fmul_lt _ _)
  · exact .errFlag
  · rename_i e hne he
    obtain rfl := (decodeLX32_error he).resolve_left hne
    exact .errRange

theorem endingOf_allowed (i : Instr) (s : State) : AllowedEnding (endingOf i s) := by
  cases i with
  | sqrtRatio => exact sqrtRatioEnding_allowed _ _ _
  | decompress => exact decompressEnding_allowed _ _
  | compress => exact compressEnding_allowed _ _
  | legacyConvert => exact legacyConvertEnding_allowed _ _
  | erase => exact .ok _ (by decide)

/-! ## Every step keeps the invariant -/

theorem engineTurn_inv {s t : State} (hinv : Inv s) (h : engineTurn exec s = .next t) : Inv t := by
  rcases engineTurn_next s t h with ⟨hp, hbusy, i, -, rfl⟩ | ⟨hp, hbusy, -, rfl⟩ | ⟨-, rfl⟩
  · exact (endingOf_allowed i s).inv_finish ((endingBase_status i s).trans (status_and_res_of_inv_busy hinv hp hbusy).1)
  · exact AllowedEnding.errIllegal.inv_finish (status_and_res_of_inv_busy hinv hp hbusy).1
  · exact hinv

theorem performAccess_inv {a : Access} {s : State} (hinv : Inv s) (hp : s.power = .ready) (hwf : a.wf = true) :
    Inv (performAccess a s) := by
  rcases performAccess_cases a s hwf with ⟨w, hq⟩ | hq | ⟨hidle, w, -, hq⟩ | ⟨-, k, w, -, hq⟩ |
    ⟨-, k, w, -, hq⟩ <;> rw [hq]
  · exact hinv
  · exact hinv
  · have hst := issuedStatus_of_legal_idle (hinv hp).1 hidle
    exact inv_of_res_zero (by simp [hst, legalStatus]) rfl
  · exact hinv
  · exact hinv

/-- Settles O8: the engine's turn ends in one of the allowed endings, issue and reset leave `RES` 0, no other access writes
`STATUS` or `RES`, and a power loss ends the premise that the block has been reset. -/
theorem everyStepKeepsInvariant : Obligations.EveryStepKeepsInvariant := by
  intro s t hinv hstep
  have hinvRest (rest : List HostStep) : Inv (withHost rest s) := hinv
  rcases step_cases hstep with ⟨-, rest, hturn⟩ | ⟨a, rest, -, hp, hwf, rfl⟩ | ⟨d, rest, -, rfl⟩ |
    ⟨rest, -, rfl⟩
  · exact engineTurn_inv (hinvRest rest) hturn
  · exact performAccess_inv (hinvRest rest) hp hwf
  · exact inv_of_res_zero (.inl rfl) rfl
  · intro hready
    cases hready

/-! ## Reads in phase BUSY (spec/10 R34) -/

theorem getWord_zero (k : Fin 8) : getWord 0 k = 0 := by simp [getWord, getBits]

/-- Outside the operand registers a read in phase `BUSY` answers the busy word or 0. -/
theorem readPort_busy {s : State} (hst : s.status = 1) (hres : s.res = 0) {off : Nat} (hoff : off < 128)
    (haligned : off % 4 = 0) (houtside : off < 0x20 ∨ 0x60 ≤ off) :
    readPort (portOf off) s = if off = 4 then 1 else 0 := by
  rcases portOf_cases off hoff haligned with ⟨h, hp⟩ | ⟨h, hp⟩ | ⟨h8, -, hp⟩ | ⟨k, h, hp⟩ | ⟨k, h, hp⟩ |
    ⟨k, h, hp⟩
  · rw [hp, if_neg (by omega)]
    rfl
  · rw [hp, if_pos h, readPort, hst]
    exact statusRead_legal (.inr (.inl rfl))
  · rw [hp, if_neg (by omega)]
    rfl
  · omega
  · omega
  · rw [hp, if_neg (by omega), readPort, hres, getWord_zero]

/-- Settles O25: in phase `BUSY` the invariant fixes `STATUS` and `RES`, and the other ports outside the operands read 0 in
every phase. -/
theorem busyShowsNothingOfTheOperands : Obligations.BusyShowsNothingOfTheOperands := by
  intro s off rest hinv hp hbusy hoff haligned houtside hhost
  obtain ⟨hst, hres⟩ := status_and_res_of_inv_busy hinv hp hbusy
  have hwf : (⟨.read, off, 4⟩ : Access).wf = true := (access_wf_iff _).2 ⟨hoff, rfl, haligned⟩
  have hread : readPort (portOf off) (withHost rest s) = if off = 4 then 1 else 0 :=
    readPort_busy hst hres hoff haligned houtside
  rw [step_access s _ rest hhost, hostAccess_of_wf _ (withHost rest s) hp hwf, performAccess, hread]
  rfl

end Sys2Proof.Proofs
end

section
/-! The register window as the host reaches it: which accesses are accepted, what a read answers, what a write replaces or
leaves, and that accesses to a busy block leave its registers alone. -/
namespace Sys2Proof.Proofs

open Sys2Proof.Machine Sys2Proof.Config Sys2Proof.Safety Sys2Proof.Laws

/-! ## Which accesses are accepted (spec/20 R51, R54) -/

theorem hostAccess_of_outside {a : Access} (s : State) (h : 128 ≤ a.off) : hostAccess a s = .fault .outsideWindow :=
  if_pos (by simpa [Access.inWindow] using h)

theorem hostAccess_of_not_wf {a : Access} (s : State) (hp : s.power = .ready) (hoff : a.off < 128) (hwf : ¬ a.wf = true) :
    hostAccess a s = .refused .badAccess := by
  have hin : a.inWindow = true := decide_eq_true hoff
  simp [hostAccess, hin, hp, hwf]

/-- The step at an access the block accepts. -/
theorem step_access_of_wf {s : State} {a : Access} {rest : List HostStep} (hp : s.power = .ready) (hwf : a.wf = true)
    (hhost : s.host = .access a :: rest) : step s = .next (performAccess a (withHost rest s)) := by
  rw [step_access s a rest hhost, hostAccess_of_wf a (withHost rest s) hp hwf]

/-- No bus address outside the window has an offset in it (spec/20 R50, R51). -/
theorem windowOffset_of_outside {addr : Nat} (h : addr < base ∨ base + 128 ≤ addr) : windowOffset addr = none :=
  if_neg (by omega)

/-- Settles O16: the window is asked for before anything else, and a bus address outside it has no offset. -/
theorem accessOutsideTheWindowStops : Obligations.AccessOutsideTheWindowStops := by
  refine ⟨fun s a rest hoff hhost => ?_, fun addr width k hout => ?_⟩
  · rw [step_access s a rest hhost, hostAccess_of_outside _ hoff]
  · rw [busAccess, windowOffset_of_outside hout]

/-- Settles O14: inside the window an access is well formed if and only if it is an aligned word. -/
theorem onlyAlignedWordAccessesAreAccepted : Obligations.OnlyAlignedWordAccessesAreAccepted := by
  intro s a rest hp hoff hhost
  have hwf : a.wf = true ↔ a.width = 4 ∧ a.off % 4 = 0 := (access_wf_iff a).trans (and_iff_right hoff)
  rw [← hwf]
  refine ⟨⟨fun ⟨t, ht⟩ => ?_, fun h => ⟨_, step_access_of_wf hp h hhost⟩⟩, fun h => ?_⟩
  · rw [step_access s a rest hhost] at ht
    obtain ⟨-, hw, -⟩ := hostAccess_next a _ t ht
    exact hw
  · rw [step_access s a rest hhost, hostAccess_of_not_wf (withHost rest s) hp hoff h]

/-! ## What a read answers (spec/20 R50, R52, R56) -/

/-- Word `k` of a register that is mapped from offset `start` up, from the offset of the word. -/
theorem getWord_of_offset (b : Buf) (k : Fin 8) {off start : Nat} (h : off = start + 4 * k.val) :
    getWord b k = b.extractLsb' (8 * (off - start)) 32 := by
  have hbit : 8 * (off - start) = 32 * k.val := by omega
  rw [hbit]
  rfl

/-- The window's map, as the word that a read at each offset gives. -/
theorem readPort_portOf (s : State) {off : Nat} (hoff : off < 128) (haligned : off % 4 = 0) :
    readPort (portOf off) s =
      if off = 4 then s.status &&& 0x0000FF7B
      else if off < 0x20 then 0
      else if off < 0x40 then s.opa.extractLsb' (8 * (off - 0x20)) 32
      else if off < 0x60 then s.opb.extractLsb' (8 * (off - 0x40)) 32
      else s.res.extractLsb' (8 * (off - 0x60)) 32 := by
  rcases portOf_cases off hoff haligned with ⟨h, hp⟩ | ⟨h, hp⟩ | ⟨h8, h32, hp⟩ | ⟨k, h, hp⟩ | ⟨k, h, hp⟩ |
    ⟨k, h, hp⟩ <;> rw [hp]
  · rw [if_neg (by omega), if_pos (by omega)]
    rfl
  · rw [if_pos h]
    rfl
  · rw [if_neg (by omega), if_pos h32]
    rfl
  · rw [if_neg (by omega), if_neg (by omega), if_pos (by omega)]
    exact getWord_of_offset s.opa k h
  · rw [if_neg (by omega), if_neg (by omega), if_neg (by omega), if_pos (by omega)]
    exact getWord_of_offset s.opb k h
  · rw [if_neg (by omega), if_neg (by omega), if_neg (by omega), if_neg (by omega)]
    exact getWord_of_offset s.res k h

/-- Settles O10: an accepted read answers the word of its port, and the port is the one of the map. -/
theorem hostReadAnswersTheWindow : Obligations.HostReadAnswersTheWindow := by
  intro s off rest hp hoff haligned hhost
  rw [step_access_of_wf hp ((access_wf_iff _).2 ⟨hoff, rfl, haligned⟩) hhost, performAccess,
    readPort_portOf (withHost rest s) hoff haligned]
  rfl

/-! ## What a write replaces (spec/20 R52, R55) -/

theorem portOf_opa (k : Fin 8) : portOf (0x20 + 4 * k.val) = .opa k := by revert k; decide

theorem portOf_opb (k : Fin 8) : portOf (0x40 + 4 * k.val) = .opb k := by revert k; decide

theorem getWord_setWord (b : Buf) (k j : Fin 8) (w : Word) :
    getWord (setWord b k w) j = if j = k then w else getWord b j := by
  by_cases h : j = k
  · rw [if_pos h, h, getWord_setWord_same]
  · rw [if_neg h, getWord_setWord_ne b k j w h]

/-- The step at an accepted write. -/
theorem step_write {s : State} {off : Nat} {w : Word} {rest : List HostStep} (hp : s.power = .ready) (hoff : off < 128)
    (haligned : off % 4 = 0) (hhost : s.host = .access ⟨.write w, off, 4⟩ :: rest) :
    step s = .next (writePort (portOf off) w (withHost rest s)) :=
  step_access_of_wf hp ((access_wf_iff _).2 ⟨hoff, rfl, haligned⟩) hhost

/-- Settles O11: the port of the offset is the operand's word `k`, and in phase `IDLE` the write replaces it. -/
theorem hostWriteReplacesAnOperandWord : Obligations.HostWriteReplacesAnOperandWord := by
  intro s k w rest hp hidle
  refine ⟨fun hhost => ⟨{ withHost rest s with opa := setWord s.opa k w }, ?_, fun j => getWord_setWord s.opa k j w, ?_⟩,
    fun hhost => ⟨{ withHost rest s with opb := setWord s.opb k w }, ?_, fun j => getWord_setWord s.opb k j w, ?_⟩⟩
  · rw [step_write hp (by omega) (by omega) hhost, portOf_opa, writePort_opa k w (withHost rest s) hidle]
    rfl
  · simp
  · rw [step_write hp (by omega) (by omega) hhost, portOf_opb, writePort_opb k w (withHost rest s) hidle]
    rfl
  · simp

/-! ## Which writes are dropped (spec/20 R55, spec/40 R104) -/

/-- A write to `STATUS`, a reserved word or `RES` is dropped in every phase. -/
theorem writePort_of_readOnly (s : State) (w : Word) {off : Nat} (hoff : off < 128) (haligned : off % 4 = 0)
    (h : (4 ≤ off ∧ off < 0x20) ∨ 0x60 ≤ off) : writePort (portOf off) w s = s := by
  rcases portOf_cases off hoff haligned with ⟨_, hp⟩ | ⟨_, hp⟩ | ⟨_, _, hp⟩ | ⟨k, _, hp⟩ | ⟨k, _, hp⟩ | ⟨k, _, hp⟩
  · omega
  · rw [hp]; rfl
  · rw [hp]; rfl
  · omega
  · omega
  · rw [hp]; rfl

/-- Settles O12: outside phase `IDLE` every port drops a write, and in phase `IDLE` the ports that are read only. -/
theorem ignoredWritesChangeNothing : Obligations.IgnoredWritesChangeNothing := by
  intro s off w rest hp hoff haligned hdropped hhost
  rw [step_write hp hoff haligned hhost]
  rcases hdropped with hnotIdle | hreadOnly
  · rw [writePort_of_not_idle _ _ (withHost rest s) hnotIdle]
    rfl
  · rw [writePort_of_readOnly _ _ hoff haligned hreadOnly]
    rfl

/-! ## Schedules that change no register (spec/20 R62, spec/70 R236) -/

/-- In phase `ph` a reset block moves past the schedule entry `h` and keeps its registers. -/
def passesOver (ph : Phase) (h : HostStep) : Prop :=
  ∀ (s : State) (rest : List HostStep), s.power = .ready → phase s = ph → s.host = h :: rest →
    ∃ t, step s = .next t ∧ sameRegisters s t ∧ t.host = rest

theorem sameRegisters_refl (s : State) : sameRegisters s s := ⟨rfl, rfl, rfl, rfl, rfl, rfl⟩

theorem sameRegisters_trans {s t u : State} (hst : sameRegisters s t) (htu : sameRegisters t u) : sameRegisters s u := by
  obtain ⟨hopa, hopb, hres, hstatus, hcmdr, hpower⟩ := hst
  obtain ⟨hopa', hopb', hres', hstatus', hcmdr', hpower'⟩ := htu
  exact ⟨hopa'.trans hopa, hopb'.trans hopb, hres'.trans hres, hstatus'.trans hstatus, hcmdr'.trans hcmdr,
    hpower'.trans hpower⟩

theorem phase_eq_of_sameRegisters {s t : State} (h : sameRegisters s t) : phase t = phase s := by
  obtain ⟨-, -, -, hstatus, -⟩ := h
  exact congrArg phaseOf hstatus

/-- A run whose first step answers `t` goes on from `t`. -/
theorem run_succ_of_step {M : Host.Core} {s t : M.State} (k : Nat) (h : M.step s = .next t) :
    M.run (k + 1) s = M.run k t := by
  simp only [Host.Core.run, h]

/-- The induction over a schedule: the block moves past entries that it passes over one by one. The registers, the phase among
them, stay as they were, so each entry is met in the same phase. -/
theorem run_of_passesOver {ph : Phase} (sched rest : List HostStep) (hpass : ∀ h ∈ sched, passesOver ph h) :
    ∀ s : State, s.power = .ready → phase s = ph → s.host = sched ++ rest →
      ∃ t, Sys2Proof.core.run sched.length s = .next t ∧ sameRegisters s t ∧ t.host = rest := by
  induction sched with
  | nil => exact fun s _ _ hhost => ⟨s, rfl, sameRegisters_refl s, hhost⟩
  | cons h sched ih =>
    intro s hp hph hhost
    obtain ⟨hhead, htail⟩ := List.forall_mem_cons.1 hpass
    obtain ⟨t, hstep, hsame, hthost⟩ := hhead s (sched ++ rest) hp hph hhost
    have ⟨_, _, _, _, _, hpower⟩ := hsame
    obtain ⟨u, hrun, hsame', huhost⟩ :=
      ih htail t (hpower.trans hp) ((phase_eq_of_sameRegisters hsame).trans hph) hthost
    exact ⟨u, (run_succ_of_step sched.length hstep).trans hrun, sameRegisters_trans hsame hsame', huhost⟩

/-- Outside phase `IDLE` an access answers a word or is dropped (spec/20 R55, R56, spec/40 R102). -/
theorem performAccess_of_not_idle (a : Access) {s : State} (h : phase s ≠ .idle) :
    (∃ w, performAccess a s = answer w s) ∨ performAccess a s = s := by
  obtain ⟨kind, off, width⟩ := a
  cases kind with
  | read => exact .inl ⟨_, rfl⟩
  | write w => exact .inr (writePort_of_not_idle _ w s h)

theorem passesOver_access {ph : Phase} (hph : ph ≠ .idle) {a : Access} (hwf : a.wf = true) : passesOver ph (.access a) := by
  rintro s rest hp rfl hhost
  refine ⟨_, step_access_of_wf hp hwf hhost, ?_⟩
  rcases performAccess_of_not_idle a (s := withHost rest s) hph with ⟨w, hq⟩ | hq <;> rw [hq]
  · exact ⟨sameRegisters_refl s, rfl⟩
  · exact ⟨sameRegisters_refl s, rfl⟩

/-- Settles O22: a block in phase `BUSY` passes over every accepted access. -/
theorem busyAccessesChangeNoRegister : Obligations.BusyAccessesChangeNoRegister := by
  intro accs rest s hp hbusy hwf hhost
  have hpass : ∀ h ∈ accs.map HostStep.access, passesOver .busy h :=
    List.forall_mem_map.2 fun a ha => passesOver_access (by decide) (hwf a ha)
  simpa only [List.length_map] using run_of_passesOver (accs.map .access) rest hpass s hp hbusy hhost

end Sys2Proof.Proofs
end

section
/-! The decoder and the encoder of command words (spec/30 R70 to R74): on words, and on streams of bytes. -/
namespace Sys2Proof.Proofs

/-! ## Words -/

theorem toNat_zeroField (w : Word) : (zeroField w).toNat = w.toNat / 16 := by
  have hw : w.toNat < 2 ^ 32 := w.isLt
  rw [zeroField, BitVec.extractLsb'_toNat, Nat.shiftRight_eq_div_pow]
  omega

theorem toNat_opcodeField (w : Word) : (opcodeField w).toNat = w.toNat % 16 := by
  rw [opcodeField, BitVec.extractLsb'_toNat, Nat.shiftRight_zero]

/-- The decoder in terms of the word's number, as spec/30 R74 gives it: bits 31:4 are the quotient by 16, bits 3:0 the
remainder. -/
theorem decode_eq_of_toNat (w : Word) :
    decode w = if w.toNat / 16 ≠ 0 then .error .zeroFieldSet else opcodeInstr (w.toNat % 16) := by
  have hzero : zeroField w ≠ 0 ↔ w.toNat / 16 ≠ 0 := by
    rw [← toNat_zeroField, ne_eq, BitVec.toNat_eq]
    rfl
  simp only [decode, hzero, toNat_opcodeField]

/-- The opcode map of spec/30 R71, with every reserved opcode giving no command. -/
theorem toOption_opcodeInstr (op : Nat) :
    (opcodeInstr op).toOption =
      if op = 1 then some .sqrtRatio
      else if op = 2 then some .decompress
      else if op = 3 then some .compress
      else if op = 4 then some .legacyConvert
      else if op = 5 then some .erase
      else none := by
  unfold opcodeInstr
  split
  case h_6 h1 h2 h3 h4 h5 => simp only [if_neg h1, if_neg h2, if_neg h3, if_neg h4, if_neg h5, Except.toOption]
  all_goals rfl

/-- Settles O1: a nonzero quotient by 16 is refused, and the remainder is looked up in the opcode map. -/
theorem decodeIsTheOpcodeTable : Obligations.DecodeIsTheOpcodeTable := by
  intro w
  rw [decode_eq_of_toNat]
  split
  · rfl
  · exact toOption_opcodeInstr _

theorem decode_encode (i : Instr) : decode (encode i) = .ok i := by
  have hword : Laws.CommandWord.Statement i := by
    cases i with
    | sqrtRatio => exact Laws.CommandWord.sqrtRatio
    | decompress => exact Laws.CommandWord.decompress
    | compress => exact Laws.CommandWord.compress
    | legacyConvert => exact Laws.CommandWord.legacyConvert
    | erase => exact Laws.CommandWord.erase
  obtain ⟨-, -, -, hdecode⟩ := hword
  exact hdecode

/-- Settles O2: the words written out are the words of the encoder. -/
theorem writtenWordsDecode : Obligations.WrittenWordsDecode :=
  ⟨decode_encode .sqrtRatio, decode_encode .decompress, decode_encode .compress, decode_encode .legacyConvert,
    decode_encode .erase⟩

/-! ## Streams of bytes (log entry 14) -/

/-- A word is put together again from its four bytes. -/
theorem wordOfBytes_extractLsb' (w : Word) :
    wordOfBytes (w.extractLsb' 0 8) (w.extractLsb' 8 8) (w.extractLsb' 16 8) (w.extractLsb' 24 8) = w := by
  have htwo : w.extractLsb' 24 8 ++ w.extractLsb' 16 8 = w.extractLsb' 16 16 :=
    BitVec.extractLsb'_append_extractLsb'_eq_extractLsb' rfl
  have hthree : w.extractLsb' 16 16 ++ w.extractLsb' 8 8 = w.extractLsb' 8 24 :=
    BitVec.extractLsb'_append_extractLsb'_eq_extractLsb' rfl
  have hall : w.extractLsb' 8 24 ++ w.extractLsb' 0 8 = w.extractLsb' 0 32 :=
    BitVec.extractLsb'_append_extractLsb'_eq_extractLsb' rfl
  rw [wordOfBytes, htwo, hthree, hall, BitVec.extractLsb'_eq_self]

/-- Past the byte at its end, an append is sliced in its high part. -/
theorem extractLsb'_append_byte {n : Nat} (x : BitVec n) (b : Byte) (lo len : Nat) :
    (x ++ b).extractLsb' (lo + 8) len = x.extractLsb' lo len := by
  rw [BitVec.extractLsb'_append_eq_of_le (Nat.le_add_left 8 lo), Nat.add_sub_cancel]

theorem extractLsb'_zero_append_byte {n : Nat} (x : BitVec n) (b : Byte) : (x ++ b).extractLsb' 0 8 = b := by
  rw [BitVec.extractLsb'_append_eq_of_add_le (Nat.le_refl 8), BitVec.extractLsb'_eq_self]

/-- A command whose word four bytes make is encoded as those four bytes: each slice drops the bytes below its own. -/
theorem encodeBytes_of_encode_eq {i : Instr} {b0 b1 b2 b3 : Byte} (h : encode i = wordOfBytes b0 b1 b2 b3) :
    encodeBytes i = [b0, b1, b2, b3] := by
  have h0 : (wordOfBytes b0 b1 b2 b3).extractLsb' 0 8 = b0 := extractLsb'_zero_append_byte _ _
  have h1 : (wordOfBytes b0 b1 b2 b3).extractLsb' 8 8 = b1 :=
    (extractLsb'_append_byte _ _ 0 8).trans (extractLsb'_zero_append_byte _ _)
  have h2 : (wordOfBytes b0 b1 b2 b3).extractLsb' 16 8 = b2 :=
    (extractLsb'_append_byte _ _ 8 8).trans <| (extractLsb'_append_byte _ _ 0 8).trans (extractLsb'_zero_append_byte _ _)
  have h3 : (wordOfBytes b0 b1 b2 b3).extractLsb' 24 8 = b3 :=
    (extractLsb'_append_byte _ _ 16 8).trans <| (extractLsb'_append_byte _ _ 8 8).trans <|
      (extractLsb'_append_byte _ _ 0 8).trans BitVec.extractLsb'_eq_self
  rw [encodeBytes, h, h0, h1, h2, h3]

theorem decodeBytes_eq_ok_iff (bs : List Byte) (i : Instr) (rest : List Byte) :
    decodeBytes bs = .ok (i, rest) ↔
      ∃ b0 b1 b2 b3, bs = b0 :: b1 :: b2 :: b3 :: rest ∧ decode (wordOfBytes b0 b1 b2 b3) = .ok i := by
  constructor
  · intro h
    unfold decodeBytes at h
    split at h
    · split at h
      · cases h
        exact ⟨_, _, _, _, rfl, by assumption⟩
      · cases h
    · cases h
  · rintro ⟨b0, b1, b2, b3, rfl, hdecode⟩
    simp only [decodeBytes, hdecode]

theorem decodeBytes_encodeBytes (i : Instr) (rest : List Byte) : decodeBytes (encodeBytes i ++ rest) = .ok (i, rest) := by
  refine (decodeBytes_eq_ok_iff _ i rest).2 ⟨_, _, _, _, rfl, ?_⟩
  rw [wordOfBytes_extractLsb', decode_encode]

theorem eq_encodeBytes_of_decodeBytes {bs : List Byte} {i : Instr} {rest : List Byte}
    (h : decodeBytes bs = .ok (i, rest)) : bs = encodeBytes i ++ rest := by
  obtain ⟨b0, b1, b2, b3, rfl, hdecode⟩ := (decodeBytes_eq_ok_iff bs i rest).1 h
  rw [encodeBytes_of_encode_eq (eq_encode_of_decode hdecode).symm]
  rfl

/-- Settles O3: the two directions on words, and on streams the same two carried over by the two lemmas that take a word apart
into its bytes and put it together again. -/
theorem decodeAndEncodeAgree : Obligations.DecodeAndEncodeAgree :=
  ⟨fun i _ => decode_encode i, fun _ _ h => eq_encode_of_decode h, fun i rest _ => decodeBytes_encodeBytes i rest,
    fun _ _ _ h => eq_encodeBytes_of_decodeBytes h⟩

end Sys2Proof.Proofs
end

section
/-! The sequencing of commands (spec/40): what issue writes, what the engine's turn does in each phase, and the order of the
phases. -/
namespace Sys2Proof.Proofs

open Sys2Proof.Machine Sys2Proof.Safety Sys2Proof.Laws

/-! ## The engine's turn, case by case (spec/40 R101, R105, R106) -/

/-- Where the completion step is not enabled, the engine does nothing (log entry 3). -/
theorem engineTurn_of_not_enabled {s : State} (h : ¬ (s.power = .ready ∧ phase s = .busy)) :
    engineTurn exec s = .next s :=
  if_neg (by simpa [engineEnabled] using h)

/-- The completion of a word that is no command (spec/46 R202). -/
theorem engineTurn_of_illegal {s : State} {e : Illegal} (hp : s.power = .ready) (hbusy : phase s = .busy)
    (he : decode s.cmdr = .error e) : engineTurn exec s = .next (complete .errIllegal 0 0 0 s) := by
  simp [engineTurn, engineEnabled, fetchCommand, hp, hbusy, he, execIllegal, finish]

/-- Both ways to the engine's turn are that turn on the state with some schedule left: a turn on an empty schedule leaves it
as it is. -/
theorem step_of_engineNext {s : State} (h : engineNext s) : ∃ rest, step s = engineTurn exec (withHost rest s) := by
  rcases h with hnil | ⟨rest, hengine⟩
  · exact ⟨s.host, step_nil s hnil⟩
  · exact ⟨rest, step_engine s rest hengine⟩

/-- Settles O17: in phase `BUSY` the engine's turn is the command held, and the mark it is taken at is no register. -/
theorem stepRunsTheDecodedCommand : Obligations.StepRunsTheDecodedCommand := by
  intro s i hp hbusy hi _
  refine ⟨fun hhost => ?_, fun rest hhost => ?_⟩
  · rw [step_nil s hhost, engineTurn_of_command s i hp hbusy hi]
  · rw [step_engine s rest hhost]
    exact engineTurn_of_command (withHost rest s) i hp hbusy hi

/-- Settles O21: the engine's turn is not enabled, whichever way it comes. -/
theorem engineActsOnlyInBusy : Obligations.EngineActsOnlyInBusy := by
  intro s h
  refine ⟨fun hhost => ?_, fun rest hhost => ?_⟩
  · rw [step_nil s hhost, engineTurn_of_not_enabled h]
  · rw [step_engine s rest hhost]
    exact engineTurn_of_not_enabled (s := withHost rest s) h

/-! ## A command placed in `CMDR` (log entry 18) -/

/-- A table row of all 32 bits is the word itself (spec/30 R70). -/
theorem tableWord_toNat (w : Word) : tableWord 32 w.toNat = some w := by
  have hlt : w.toNat < 2 ^ 32 := w.isLt
  rw [tableWord, Nat.mod_eq_of_lt hlt, if_pos hlt, BitVec.ofNat_toNat, BitVec.setWidth_eq]

theorem withFetchWord_cmdr (s : State) (w : Word) : (s.withFetchWord 32 w.toNat).cmdr = w := by
  simp only [State.withFetchWord, loadCommand, tableWord_toNat]

/-- Settles O18: the command's own word is the one that is loaded, and the engine's turn decodes it. -/
theorem loadedWordRunsNext : Obligations.LoadedWordRunsNext := by
  intro s i
  refine ⟨?_, ?_⟩
  · simp only [decodeTableWord, tableWord_toNat, decode_encode, Except.toOption]
  · have hdecode : decode (s.withFetchWord 32 (encode i).toNat).cmdr = .ok i := by
      rw [withFetchWord_cmdr, decode_encode]
    rw [step_nil _ (withFetchWord_host s _ _)]
    exact engineTurn_of_command _ i rfl (by rw [phase, withFetchWord_status]; decide) hdecode

/-! ## The issue step (spec/40 R103) -/

/-- A slice whose bits are all clear is 0. -/
theorem extractLsb'_eq_zero_of_getLsbD {n : Nat} {x : BitVec n} {lo len : Nat}
    (h : ∀ i, lo ≤ i → i < lo + len → x.getLsbD i = false) : x.extractLsb' lo len = 0 := by
  apply BitVec.eq_of_getLsbD_eq
  intro i hi
  rw [BitVec.getLsbD_extractLsb', h (lo + i) (by omega) (by omega), Bool.and_false]
  exact BitVec.getLsbD_zero.symm

/-- What issue does to `STATUS`, in the words of the statements. -/
theorem issuedStatus_statusIssued (st : Word) : statusIssued st (issuedStatus st) := by
  have hbit := issuedStatus_getLsbD st
  refine ⟨hbit 0 (by decide), hbit 1 (by decide), extractLsb'_eq_zero_of_getLsbD fun i hlo hhi => ?_,
    extractLsb'_eq_zero_of_getLsbD fun i hlo hhi => ?_, extractLsb'_eq_zero_of_getLsbD fun i hlo hhi => ?_,
    hbit 2 (by decide), hbit 3 (by decide), hbit 7 (by decide), ?_⟩
  · rw [hbit i (by omega), if_neg (by omega), if_neg (by omega), if_pos (by omega)]
  · rw [hbit i (by omega), if_neg (by omega), if_pos (by omega)]
  · rw [hbit i (by omega), if_pos (by omega)]
  · apply BitVec.eq_of_getLsbD_eq
    intro i hi
    rw [BitVec.getLsbD_extractLsb', BitVec.getLsbD_extractLsb', hbit _ (by omega), if_neg (by omega),
      if_neg (by omega), if_neg (by omega), if_neg (by omega), if_neg (by omega)]

/-- The fault bit decides for phase `FAULT` before `BUSY` is looked at (spec/10 R27). -/
theorem statusFault_of_phase_ne_fault {s : State} (h : phase s ≠ .fault) : statusFault s.status = false :=
  Bool.eq_false_iff.2 fun hfault => h (if_pos hfault)

theorem phase_issue {s : State} (w : Word) (h : phase s ≠ .fault) : phase (issue w s) = .busy := by
  rw [phase, issue_status, phaseOf_issuedStatus, statusFault_of_phase_ne_fault h]
  rfl

/-- Settles O13: the write is accepted, its port is `CMD`, and in phase `IDLE` it is the issue step. -/
theorem issueLatchesTheCommand : Obligations.IssueLatchesTheCommand := by
  intro s w rest hp hidle hhost
  have hstep : step s = .next (issue w (withHost rest s)) :=
    (step_write hp (by decide) (by decide) hhost).trans (congrArg _ (writePort_cmd w (withHost rest s) hidle))
  have hnotFault : phase (withHost rest s) ≠ .fault := by
    rw [show phase (withHost rest s) = .idle from hidle]
    decide
  exact ⟨_, hstep, rfl, rfl, issuedStatus_statusIssued s.status, fun hlegal => issuedStatus_of_legal_idle hlegal hidle,
    phase_issue w hnotFault, rfl, rfl, rfl, rfl, rfl, rfl⟩

/-! ## What the result depends on (spec/40 R107) -/

/-- Every ending is made from the operands alone. -/
theorem endingOf_congr (i : Instr) {s s' : State} (hopa : s'.opa = s.opa) (hopb : s'.opb = s.opb) :
    endingOf i s' = endingOf i s := by
  cases i <;> simp only [endingOf, hopa, hopb]

/-- `ERASE` writes the same into the operands of either state; the other commands leave both as they were. -/
theorem endingBase_operands_congr (i : Instr) {s s' : State} (hopa : s'.opa = s.opa) (hopb : s'.opb = s.opb) :
    (endingBase i s').opa = (endingBase i s).opa ∧ (endingBase i s').opb = (endingBase i s).opb := by
  by_cases hi : i = .erase
  · subst hi
    exact ⟨rfl, rfl⟩
  · rw [endingBase_of_ne_erase i s hi, endingBase_of_ne_erase i s' hi]
    exact ⟨hopa, hopb⟩

/-- An ending writes `RES` without looking at the state, so two states that agree in every other register come to agree in
`RES` as well. -/
theorem finish_sameRegisters (e : Ending) {s s' : State} (hopa : s'.opa = s.opa) (hopb : s'.opb = s.opb)
    (hstatus : s'.status = s.status) (hcmdr : s'.cmdr = s.cmdr) (hpower : s'.power = s.power) :
    sameRegisters (finish e s) (finish e s') :=
  ⟨by simpa using hopa, by simpa using hopb, finish_res_eq e s s', finish_status_eq e hstatus, by simpa using hcmdr,
    by simpa using hpower⟩

/-- The completion step of a block in phase `BUSY`, from two states that agree in every register but `RES`. -/
theorem engineTurn_sameRegisters {s s' : State} (hbusy : phase s = .busy) (hp : s.power = .ready)
    (hp' : s'.power = .ready) (hstatus : s'.status = s.status) (hcmdr : s'.cmdr = s.cmdr) (hopa : s'.opa = s.opa)
    (hopb : s'.opb = s.opb) :
    ∃ t t', engineTurn exec s = .next t ∧ engineTurn exec s' = .next t' ∧ sameRegisters t t' := by
  have hbusy' : phase s' = .busy := (congrArg phaseOf hstatus).trans hbusy
  have hpower : s'.power = s.power := hp'.trans hp.symm
  cases hdecode : decode s.cmdr with
  | ok i =>
    refine ⟨_, _, (engineTurn_of_command s i hp hbusy hdecode).trans (exec_eq i s),
      (engineTurn_of_command s' i hp' hbusy' (hcmdr ▸ hdecode)).trans (exec_eq i s'), ?_⟩
    obtain ⟨hbaseOpa, hbaseOpb⟩ := endingBase_operands_congr i hopa hopb
    rw [endingOf_congr i hopa hopb]
    exact finish_sameRegisters _ hbaseOpa hbaseOpb (by simpa using hstatus) (by simpa using hcmdr)
      (by simpa using hpower)
  | error e =>
    exact ⟨_, _, engineTurn_of_illegal hp hbusy hdecode, engineTurn_of_illegal hp' hbusy' (hcmdr ▸ hdecode),
      finish_sameRegisters (.complete .errIllegal 0 0 0) hopa hopb hstatus hcmdr hpower⟩

/-- Settles O24: each of the two steps is the completion step of a block in phase `BUSY`, and the schedule is no register. -/
theorem resultDependsOnCommandAndOperandsOnly : Obligations.ResultDependsOnCommandAndOperandsOnly := by
  intro s s' t hp hp' hst hst' hengine hengine' hcmdr hopa hopb hstep
  obtain ⟨rest, hturn⟩ := step_of_engineNext hengine
  obtain ⟨rest', hturn'⟩ := step_of_engineNext hengine'
  have hbusy : phase s = .busy := by rw [phase, hst]; decide
  obtain ⟨u, u', hu, hu', hsame⟩ := engineTurn_sameRegisters (s := withHost rest s) (s' := withHost rest' s') hbusy hp hp'
    (hst'.trans hst.symm) hcmdr hopa hopb
  obtain rfl : u = t := by
    rw [hturn, hu] at hstep
    cases hstep
    rfl
  exact ⟨u', hturn'.trans hu', hsame⟩

/-! ## The order of the phases (spec/40 R109) -/

theorem phase_complete {s : State} (o : OutcomeCode) (r : Buf) (eb : BitVec 5) (bt : BitVec 3) (h : phase s ≠ .fault) :
    phase (complete o r eb bt s) = .idle := by
  rw [phase, complete_status, phaseOf_completedStatus, statusFault_of_phase_ne_fault h]
  rfl

theorem phase_raiseFault (c : FaultCause) (s : State) : phase (raiseFault c s) = .fault := phaseOf_faultStatus s.status

theorem sqrtRatioEnding_ne_raise (i : Nat) (a b : Buf) (c : FaultCause) : sqrtRatioEnding i a b ≠ .raise c := by
  unfold sqrtRatioEnding
  split
  · split <;> exact nofun
  · exact nofun

theorem decompressEnding_ne_raise (i : Nat) (a : Buf) (c : FaultCause) : decompressEnding i a ≠ .raise c := by
  unfold decompressEnding
  split
  · split <;> exact nofun
  · exact nofun

theorem legacyConvertEnding_ne_raise (iso : Nat) (a : Buf) (c : FaultCause) : legacyConvertEnding iso a ≠ .raise c := by
  unfold legacyConvertEnding
  split <;> exact nofun

/-- `COMPRESS` is the only command that raises the fault (spec/60 R212). -/
theorem eq_compress_of_endingOf_raise {i : Instr} {s : State} {c : FaultCause} (h : endingOf i s = .raise c) :
    i = .compress := by
  cases i with
  | sqrtRatio => exact absurd h (sqrtRatioEnding_ne_raise _ _ _ c)
  | decompress => exact absurd h (decompressEnding_ne_raise _ _ c)
  | compress => rfl
  | legacyConvert => exact absurd h (legacyConvertEnding_ne_raise _ _ c)
  | erase => cases h

/-- A command in flight ends in phase `IDLE`, or, if it is `COMPRESS`, in phase `FAULT`. -/
theorem phase_finish_endingOf {i : Instr} {s : State} (hbusy : phase s = .busy) :
    phase (finish (endingOf i s) (endingBase i s)) = .idle ∨
    (phase (finish (endingOf i s) (endingBase i s)) = .fault ∧ i = .compress) := by
  have hbase : phase (endingBase i s) ≠ .fault := by
    rw [phase, endingBase_status, ← phase, hbusy]
    decide
  cases he : endingOf i s with
  | complete o r eb bt => exact .inl (phase_complete o r eb bt hbase)
  | raise c => exact .inr ⟨phase_raiseFault c _, eq_compress_of_endingOf_raise he⟩

/-- What the engine's turn does to the phase of a reset block. -/
theorem engineTurn_phase {s t : State} (hp : s.power = .ready) (h : engineTurn exec s = .next t) :
    (phase s ≠ .busy ∧ phase t = phase s) ∨
    (phase s = .busy ∧ (phase t = .idle ∨ (phase t = .fault ∧ s.cmdr = 3))) := by
  rcases engineTurn_next s t h with ⟨-, hbusy, i, hi, rfl⟩ | ⟨-, hbusy, -, rfl⟩ | ⟨hnot, rfl⟩
  · refine .inr ⟨hbusy, (phase_finish_endingOf hbusy).imp_right fun ⟨hfault, hcompress⟩ => ⟨hfault, ?_⟩⟩
    rw [eq_encode_of_decode hi, hcompress]
    rfl
  · exact .inr ⟨hbusy, .inl (phase_complete _ _ _ _ (by rw [hbusy]; decide))⟩
  · exact .inl ⟨fun hbusy => hnot ⟨hp, hbusy⟩, rfl⟩

/-- What an accepted access does to the phase: only the issue of a command changes it. -/
theorem performAccess_phase {a : Access} {s : State} (hwf : a.wf = true) :
    phase (performAccess a s) = phase s ∨
    (phase s = .idle ∧ phase (performAccess a s) = .busy ∧ ∃ w, a = ⟨.write w, 0, 4⟩) := by
  rcases performAccess_cases a s hwf with ⟨w, hq⟩ | hq | ⟨hidle, w, ha, hq⟩ | ⟨-, k, w, -, hq⟩ | ⟨-, k, w, -, hq⟩ <;>
    rw [hq]
  · exact .inl rfl
  · exact .inl rfl
  · exact .inr ⟨hidle, phase_issue w (by rw [hidle]; decide), w, ha⟩
  · exact .inl rfl
  · exact .inl rfl

/-- Settles O26: the engine's turn moves the phase from `BUSY` alone, an access from `IDLE` alone, a reset leaves `IDLE`, and
a power loss leaves no reset block. -/
theorem phaseChangesOnlyAsSequenced : Obligations.PhaseChangesOnlyAsSequenced := by
  intro s t hp ht hstep
  rcases step_cases hstep with ⟨hengine, rest, hturn⟩ | ⟨a, rest, hhost, -, hwf, rfl⟩ | ⟨d, rest, hhost, rfl⟩ |
    ⟨rest, -, rfl⟩
  · rcases engineTurn_phase (s := withHost rest s) hp hturn with ⟨hnot, hsame⟩ | ⟨hbusy, hend⟩
    · exact ⟨fun h => .inl (hsame.trans h), fun h => absurd h hnot, fun h => .inl (hsame.trans h)⟩
    · replace hbusy : phase s = .busy := hbusy
      refine ⟨fun h => ?_, fun _ => .inr ?_, fun h => ?_⟩
      · simp [hbusy] at h
      · exact hend.imp (fun hidle => ⟨hidle, hengine.imp_right .inl⟩) fun ⟨hfault, hcmdr⟩ => ⟨hfault, hcmdr, hengine⟩
      · simp [hbusy] at h
  · rcases performAccess_phase (s := withHost rest s) hwf with hsame | ⟨hidle, hbusy, w, rfl⟩
    · exact ⟨fun h => .inl (hsame.trans h), fun h => .inl ⟨hsame.trans h, a, rest, hhost⟩, fun h => .inl (hsame.trans h)⟩
    · replace hidle : phase s = .idle := hidle
      refine ⟨fun _ => .inr ⟨hbusy, w, rest, hhost⟩, fun h => ?_, fun h => ?_⟩
      · simp [hidle] at h
      · simp [hidle] at h
  · have hidle : phase (resetBlock (withHost rest s)) = .idle := by rw [phase, resetBlock_status]; decide
    exact ⟨fun _ => .inl hidle, fun _ => .inr (.inl ⟨hidle, .inr (.inr ⟨d, rest, hhost⟩)⟩),
      fun _ => .inr ⟨hidle, d, rest, hhost⟩⟩
  · cases ht

end Sys2Proof.Proofs
end

section
/-! The inverse of a field element (spec/41 R131) and its non-negative representative (spec/41 R137). -/
namespace Sys2Proof.Proofs

open Sys2Proof.Machine Sys2Proof.Config Sys2Proof.Laws

/-! ## The inverse (spec/41 R131) -/

theorem fmul_eq_one_iff (a b : Nat) : fmul a b = 1 ↔ (a : ZMod P) * (b : ZMod P) = 1 := by
  rw [← cast_eq_iff _ 1 (fmul_lt a b) prime_P.one_lt, cast_fmul, Nat.cast_one]

theorem finv_of_pos (a : Nat) (h0 : 0 < a) : finv a = some (fpow a (P - 2)) := if_neg h0.ne'

/-- Fermat: the power that `finv` answers is an inverse, since one more factor makes it `a^(P − 1)`. -/
theorem fmul_fpow_sub_two (a : Nat) (h0 : 0 < a) (ha : a < P) : fmul a (fpow a (P - 2)) = 1 := by
  have := fact_prime_P
  have hne : (a : ZMod P) ≠ 0 := (cast_eq_zero_iff a ha).not.2 h0.ne'
  have hexp : P - 2 + 1 = P - 1 := by have := prime_P.two_le; omega
  rw [fmul_eq_one_iff, cast_fpow, ← pow_succ', hexp, ZMod.pow_card_sub_one_eq_one hne]

/-- An element has at most one canonical inverse. -/
theorem eq_of_fmul_eq_one (a b c : Nat) (hb : b < P) (hc : c < P) (hab : fmul a b = 1) (hac : fmul a c = 1) : c = b := by
  rw [fmul_eq_one_iff] at hab hac
  exact eq_of_cast_eq c b hc hb (left_inv_eq_right_inv ((mul_comm _ _).trans hac) hab)

/-- Settles O51: Fermat's theorem gives the inverse, and inverses are unique. -/
theorem inverseIsTheUniqueInverse : Obligations.InverseIsTheUniqueInverse := by
  refine ⟨if_pos rfl, fun a h0 ha => ?_⟩
  have hlt := fpow_lt a (P - 2)
  have hinv := fmul_fpow_sub_two a h0 ha
  exact ⟨_, finv_of_pos a h0, fpow_eq a (P - 2), hlt, hinv, fun c hc hac => eq_of_fmul_eq_one a _ c hlt hc hinv hac⟩

/-! ## The non-negative representative (spec/41 R137) -/

theorem isneg_eq_false_iff (a : Nat) : isneg a = false ↔ a % 2 = 0 := by
  rw [isneg, beq_eq_false_iff_ne, Nat.mod_two_ne_one]

theorem cast_fabs_sq (a : Nat) (ha : a < P) : ((fabs a : Nat) : ZMod P) ^ 2 = (a : ZMod P) ^ 2 :=
  have := fact_prime_P
  sq_eq_sq_iff_eq_or_eq_neg.2 (cast_fabs a ha.le)

/-- An element and its negation have the same square, and its non-negative root is unique. -/
theorem fabs_fneg (a : Nat) (ha : a < P) : fabs (fneg a) = fabs a := by
  have hneg := fneg_lt a
  refine eq_of_sq_eq_of_even _ _ (fabs_lt _ hneg) (fabs_lt a ha) (fabs_even _ hneg) (fabs_even a ha) ?_
  rw [cast_fabs_sq _ hneg, cast_fabs_sq a ha, cast_fneg a ha.le, neg_sq]

theorem fabs_eq_or_add_eq (a : Nat) (ha : a < P) : fabs a = a ∨ fabs a + a = P := by
  rcases fabs_cases a with ⟨hodd, habs⟩ | ⟨-, habs⟩
  · have hpos : 0 < a := Nat.pos_of_ne_zero fun h0 => by simp [h0, isneg] at hodd
    exact .inr (by rw [habs, fneg_eq_sub a hpos, Nat.sub_add_cancel ha.le])
  · exact .inl habs

/-- Settles O50: the absolute value is even, and as a root of the square it does not change under negation. -/
theorem nonNegativeRepresentative : Obligations.NonNegativeRepresentative := fun a ha =>
  have heven := fabs_even a ha
  ⟨fabs_lt a ha, heven, (isneg_eq_false_iff _).2 heven, fabs_fneg a ha, fabs_eq_or_add_eq a ha⟩

end Sys2Proof.Proofs
end

section
/-! The function `sqrt_ratio` and the command `SQRT_RATIO` (spec/42). -/
namespace Sys2Proof.Proofs

open Sys2Proof.Machine Sys2Proof.Config Sys2Proof.Safety Sys2Proof.Laws

/-! ## The candidate root and the third branch (spec/42 R151 to R156) -/

/-- Settles O31: both sides are canonical, and `cast_rootCandidate` says that they agree in the field. -/
theorem candidateRootIsTheFormula : Obligations.CandidateRootIsTheFormula := by
  intro u v
  refine eq_of_cast_eq _ _ (rootCandidate_lt u v) (Nat.mod_lt _ P_pos) ?_
  rw [cast_rootCandidate, ZMod.natCast_mod]
  push_cast
  rfl

/-- A square root of −1 is neither 1 nor −1. -/
theorem rootOfMinusOne_sq_ne_one (i : Nat) (hi : rootOfMinusOne i) : (i : ZMod P) ^ 2 ≠ 1 := by
  have := fact_prime_P
  intro h1
  have hneg := ((rootOfMinusOne_iff i).1 hi).2
  exact one_ne_zero (eq_zero_of_eq_neg (1 : ZMod P) (h1.symm.trans hneg))

/-- spec/42 R155: a check value of `−u·i` makes `ω = −i`, so `ω²` is −1 and not 1. -/
theorem sqrtRatioWith_not_found_of_flippedI (i u v : Nat) (hi : rootOfMinusOne i) (hu : u < P) (hu0 : u ≠ 0)
    (h : rootFlippedI i u v = true) : (sqrtRatioWith i u v).1 = false := by
  have := fact_prime_P
  have hcast0 : (u : ZMod P) ≠ 0 := (cast_eq_zero_iff u hu).not.2 hu0
  have hcheck : (u : ZMod P) * checkFactor u v = u * -i := by
    rw [← cast_rootCheck, (rootFlippedI_iff i u v hu).1 h]
    ring
  have hfactor : checkFactor u v = -(i : ZMod P) := mul_left_cancel₀ hcast0 hcheck
  rw [Bool.eq_false_iff, Ne, sqrtRatioWith_found_iff_factor i u v hu hcast0, hfactor, neg_sq]
  exact rootOfMinusOne_sq_ne_one i hi

/-- spec/42 R154. -/
theorem rootCorrected_of_flippedI (i u v : Nat) (h : rootFlippedI i u v = true) :
    rootCorrected i u v = fmul i (rootCandidate u v) := by
  rw [rootCorrected, h, Bool.or_true]
  rfl

/-- Settles O34: the third comparison holds, so the candidate is corrected, and the first two fail. -/
theorem thirdBranchCorrectsWithoutFound : Obligations.ThirdBranchCorrectsWithoutFound := by
  intro i u v hi hu _ hu0 hcheck
  have hflippedI : rootFlippedI i u v = true := beq_iff_eq.2 hcheck
  refine Prod.ext (sqrtRatioWith_not_found_of_flippedI i u v hi hu hu0 hflippedI) ?_
  exact congrArg fabs (rootCorrected_of_flippedI i u v hflippedI)

/-! ## A normal completion (spec/00 R13, spec/40 R106) -/

theorem sameButResult_complete (o : OutcomeCode) (r : Buf) (eb : BitVec 5) (bt : BitVec 3) (s : State) :
    sameButResult s (complete o r eb bt s) :=
  ⟨rfl, rfl, rfl, rfl, rfl, rfl, rfl⟩

/-- A command other than `ERASE` that does not raise the fault is its completion and nothing else. -/
theorem exec_of_endingOf_complete {i : Instr} {s : State} {o : OutcomeCode} {r : Buf} {eb : BitVec 5} {bt : BitVec 3}
    (hi : i ≠ .erase) (he : endingOf i s = .complete o r eb bt) : exec i s = .next (complete o r eb bt s) := by
  rw [exec_eq, he, endingBase_of_ne_erase i s hi, finish]

/-! ## The two ways SQRT_RATIO ends (spec/42 R158, R159) -/

theorem decodeFE32_of_lt {b : Buf} (h : b.toNat < P) : decodeFE32 b = some b.toNat := if_pos h

theorem decodeFE32_of_le {b : Buf} (h : P ≤ b.toNat) : decodeFE32 b = none := if_neg h.not_gt

theorem sqrtRatioEnding_of_le (i : Nat) {a b : Buf} (h : P ≤ a.toNat ∨ P ≤ b.toNat) :
    sqrtRatioEnding i a b = .complete .errRange 0 0 0 := by
  rcases h with ha | hb
  · rw [sqrtRatioEnding, decodeFE32_of_le ha]
  · rw [sqrtRatioEnding, decodeFE32_of_le hb]
    cases decodeFE32 a <;> rfl

/-- The outcome of `SQRT_RATIO` on canonical operands, from the found bit. -/
def sqrtRatioOutcome (found : Bool) : OutcomeCode := if found then .ok else .negative

theorem sqrtRatioEnding_of_lt (i : Nat) {a b : Buf} (ha : a.toNat < P) (hb : b.toNat < P) :
    sqrtRatioEnding i a b = .complete (sqrtRatioOutcome (sqrtRatioWith i a.toNat b.toNat).1)
      (fenc (sqrtRatioWith i a.toNat b.toNat).2) 0 0 := by
  rw [sqrtRatioEnding, decodeFE32_of_lt ha, decodeFE32_of_lt hb]
  dsimp only
  cases (sqrtRatioWith i a.toNat b.toNat).1 <;> rfl

/-- Settles O32: one operand that does not decode ends the command, whatever the other one is. -/
theorem sqrtRatioRejectsNonCanonicalOperands : Obligations.SqrtRatioRejectsNonCanonicalOperands := by
  intro s h
  exact ⟨_, exec_of_endingOf_complete (by decide) (sqrtRatioEnding_of_le blockSqrtM1 h), rfl,
    completedStatus_statusCompleted .errRange 0 0 s.status, sameButResult_complete _ _ _ _ s,
    fun hbusy => by rw [complete_status, hbusy]; decide⟩

/-! ## Roots of a ratio, modulo `P` and in the field (spec/42 R157, R160) -/

theorem mul_sq_mod_eq_iff (v x w : Nat) : v * x ^ 2 % P = w % P ↔ (v : ZMod P) * (x : ZMod P) ^ 2 = w := by
  rw [← ZMod.natCast_eq_natCast_iff']
  push_cast
  rfl

/-- The found bit says whether the ratio has a root among the natural numbers. -/
theorem sqrtRatioWith_found_iff_exists (i u v : Nat) (hi : rootOfMinusOne i) (hu : u < P) :
    (sqrtRatioWith i u v).1 = true ↔ ∃ x : Nat, v * x ^ 2 % P = u := by
  have : NeZero P := ⟨P_pos.ne'⟩
  have hmod (x : Nat) : v * x ^ 2 % P = u ↔ (v : ZMod P) * (x : ZMod P) ^ 2 = u := by
    rw [← mul_sq_mod_eq_iff, Nat.mod_eq_of_lt hu]
  simp only [sqrtRatioWith_found_iff i u v hi.2 hu, hmod]
  exact ⟨fun ⟨x, hx⟩ => ⟨x.val, by rwa [ZMod.natCast_zmod_val]⟩, fun ⟨x, hx⟩ => ⟨x, hx⟩⟩

/-- A found root solves `v·x² = u`. -/
theorem mul_root_sq_mod_of_found (i u v : Nat) (hi : rootOfMinusOne i) (hu : u < P)
    (h : (sqrtRatioWith i u v).1 = true) : v * (sqrtRatioWith i u v).2 ^ 2 % P = u := by
  have hroot := (mul_sq_mod_eq_iff v _ u).2 (sqrtRatioWith_of_found i u v hi.2 hu h)
  rwa [Nat.mod_eq_of_lt hu] at hroot

/-- A root that is not found solves `v·x² = i·u`, unless `v` is 0. -/
theorem mul_root_sq_mod_of_not_found (i u v : Nat) (hi : rootOfMinusOne i) (hu : u < P) (hv : v < P) (hv0 : v ≠ 0)
    (h : (sqrtRatioWith i u v).1 = false) : v * (sqrtRatioWith i u v).2 ^ 2 % P = i * u % P := by
  rw [mul_sq_mod_eq_iff, Nat.cast_mul]
  exact sqrtRatioWith_of_not_found i u v hi.2 hu ((cast_eq_zero_iff v hv).not.2 hv0) h

/-- spec/42 R157: the candidate has `v³` as a factor. -/
theorem sqrtRatioWith_root_of_zero_right (i u : Nat) : (sqrtRatioWith i u 0).2 = 0 :=
  sqrtRatioWith_root_zero i u 0 (by rw [cast_rootCandidate, Nat.cast_zero]; ring)

/-- Settles O33: on canonical operands the command completes with the answer of `sqrt_ratio`, and the found bit says
whether there is a root. -/
theorem sqrtRatioFindsExactlyTheRoots : Obligations.SqrtRatioFindsExactlyTheRoots := by
  intro s hu hv
  have hi : rootOfMinusOne blockSqrtM1 := blockSqrtM1_spec
  have hlt := sqrtRatioWith_lt blockSqrtM1 s.opa.toNat s.opb.toNat
  have hfound := sqrtRatioWith_found_iff_exists blockSqrtM1 s.opa.toNat s.opb.toNat hi hu
  refine ⟨_, exec_of_endingOf_complete (by decide) (sqrtRatioEnding_of_lt blockSqrtM1 hu hv),
    sameButResult_complete _ _ _ _ s, ?_⟩
  simp only [complete_res, complete_status, toNat_fenc _ hlt]
  refine ⟨hlt, sqrtRatioWith_even _ _ _, fun hb => ?_, fun hex => ?_, fun hnex => ?_⟩
  · rw [hb]
    exact congrArg fenc (sqrtRatioWith_root_of_zero_right _ _)
  · have hf := hfound.2 hex
    rw [hf]
    exact ⟨mul_root_sq_mod_of_found _ _ _ hi hu hf, completedStatus_statusCompleted .ok 0 0 s.status,
      fun hbusy => by rw [hbusy]; decide⟩
  · have hf := Bool.eq_false_iff.2 (hfound.not.2 hnex)
    rw [hf]
    exact ⟨fun hb0 => mul_root_sq_mod_of_not_found _ _ _ hi hu hv (fun h0 => hb0 (BitVec.eq_of_toNat_eq h0)) hf,
      completedStatus_statusCompleted .negative 0 0 s.status, fun hbusy => by rw [hbusy]; decide⟩

end Sys2Proof.Proofs
end

section
/-! Points of the curve, and the two formats that hold one coordinate of a point and a sign (spec/30 R76, R77, R80). -/
namespace Sys2Proof.Proofs

open Sys2Proof.Machine Sys2Proof.Config Sys2Proof.Safety Sys2Proof.Laws

/-! ## The curve equation (spec/00 R2) and the two ratios (spec/43 R170, spec/44 R180) -/

theorem onCurve_iff (x y : Nat) :
    onCurve x y ↔ (y : ZMod P) ^ 2 = 1 + (x : ZMod P) ^ 2 + (D : ZMod P) * (x : ZMod P) ^ 2 * (y : ZMod P) ^ 2 := by
  rw [onCurve, ← Nat.ModEq, ← ZMod.natCast_eq_natCast_iff]
  push_cast
  rfl

/-- spec/43 R175: the roots of the ratio that `DECOMPRESS` forms are the Y coordinates at `x`. -/
theorem decompressRatio_iff_onCurve (x y : Nat) :
    fsub (fmul D (fsq x)) 1 * y ^ 2 % P = fsub (fneg (fsq x)) 1 ↔ onCurve x y := by
  rw [← Nat.mod_eq_of_lt (fsub_lt (fneg (fsq x)) 1 (fneg_lt _)), mul_sq_mod_eq_iff, onCurve_iff,
    cast_fsub _ 1 prime_P.one_le, cast_fsub _ 1 prime_P.one_le, cast_fneg _ (fsq_lt x).le, cast_fmul, cast_fsq, Nat.cast_one]
  constructor <;> intro h <;> linear_combination -h

/-- The roots of the ratio that `COMPRESS` forms are the X coordinates at `y`. -/
theorem compressRatio_iff_onCurve (x y : Nat) :
    fadd (fmul D (fsq y)) 1 * x ^ 2 % P = fsub (fsq y) 1 ↔ onCurve x y := by
  rw [← Nat.mod_eq_of_lt (fsub_lt (fsq y) 1 (fsq_lt y)), mul_sq_mod_eq_iff, onCurve_iff,
    cast_fsub _ 1 prime_P.one_le, cast_fadd, cast_fmul, cast_fsq, Nat.cast_one]
  constructor <;> intro h <;> linear_combination -h

theorem decompressRoot_found_iff (i x : Nat) (hi : rootOfMinusOne i) :
    (decompressRoot i x).1 = true ↔ ∃ y : Nat, onCurve x y :=
  (sqrtRatioWith_found_iff_exists i _ _ hi (fsub_lt _ 1 (fneg_lt _))).trans
    (exists_congr (decompressRatio_iff_onCurve x))

theorem compressRoot_found_iff (i y : Nat) (hi : rootOfMinusOne i) :
    (compressRoot i y).1 = true ↔ ∃ x : Nat, onCurve x y :=
  (sqrtRatioWith_found_iff_exists i _ _ hi (fsub_lt _ 1 (fsq_lt y))).trans
    (exists_congr fun x => compressRatio_iff_onCurve x y)

theorem onCurve_decompressRoot (i x : Nat) (hi : rootOfMinusOne i) (h : ∃ y : Nat, onCurve x y) :
    onCurve x (decompressRoot i x).2 :=
  (decompressRatio_iff_onCurve x _).1
    (mul_root_sq_mod_of_found i _ _ hi (fsub_lt _ 1 (fneg_lt _)) ((decompressRoot_found_iff i x hi).2 h))

theorem onCurve_compressRoot (i y : Nat) (hi : rootOfMinusOne i) (h : ∃ x : Nat, onCurve x y) :
    onCurve (compressRoot i y).2 y :=
  (compressRatio_iff_onCurve _ y).1
    (mul_root_sq_mod_of_found i _ _ hi (fsub_lt _ 1 (fsq_lt y)) ((compressRoot_found_iff i y hi).2 h))

/-- Two points with the same Y coordinate have X coordinates with the same square: the denominator is never 0. -/
theorem sq_eq_sq_of_onCurve {x x' y : Nat} (h : onCurve x y) (h' : onCurve x' y) : (x : ZMod P) ^ 2 = (x' : ZMod P) ^ 2 := by
  have := fact_prime_P
  have hden := (cast_eq_zero_iff _ (fadd_lt (fmul D (fsq y)) 1)).not.2 (compressDenominator_ne_zero y)
  rw [← compressRatio_iff_onCurve, ← Nat.mod_eq_of_lt (fsub_lt (fsq y) 1 (fsq_lt y)), mul_sq_mod_eq_iff] at h h'
  exact mul_left_cancel₀ hden (h.trans h'.symm)

/-- spec/43 R174(b): the points with `y = 0` are those whose `x` is a square root of −1. -/
theorem onCurve_zero_right_iff (x : Nat) (hx : x < P) : onCurve x 0 ↔ rootOfMinusOne x := by
  rw [onCurve_iff, rootOfMinusOne_iff, Nat.cast_zero, and_iff_right hx]
  constructor <;> intro h <;> linear_combination -h

/-- A square root of −1 is the X coordinate of no other point: the curve equation at it is `(1 + D)·y² = 0`. -/
theorem eq_zero_of_onCurve_of_rootOfMinusOne {x y : Nat} (hx : rootOfMinusOne x) (hy : y < P) (h : onCurve x y) : y = 0 := by
  have := fact_prime_P
  have hsq := ((rootOfMinusOne_iff x).1 hx).2
  have hD : (1 + (D : ZMod P)) ≠ 0 := fun hD0 => D_mul_sq_ne_sq 1 x (fun h0 => by simp [h0] at hsq)
    (by linear_combination hD0 - hsq)
  rw [onCurve_iff, hsq] at h
  have hprod : (1 + (D : ZMod P)) * (y : ZMod P) ^ 2 = 0 := by linear_combination h
  exact (cast_eq_zero_iff y hy).1 ((pow_eq_zero_iff two_ne_zero).1 ((mul_eq_zero.1 hprod).resolve_left hD))

/-! ## The choice of a sign (spec/43 R173, spec/44 R182) -/

theorem isneg_iff (a : Nat) : isneg a = true ↔ a % 2 = 1 := beq_iff_eq

/-- Conditional negation of a non-negative element gives the sign that was asked for, unless the element is 0. -/
theorem isneg_cneg (c : Bool) (a : Nat) (ha : a < P) (heven : a % 2 = 0) (h0 : cneg c a ≠ 0) : isneg (cneg c a) = c := by
  cases c with
  | false => exact (isneg_eq_false_iff a).2 heven
  | true =>
    have hpos : 0 < a := Nat.pos_of_ne_zero fun ha0 => h0 (by simp [ha0, cneg, sel, fneg])
    have hparity := fneg_parity a hpos ha
    exact (isneg_iff (fneg a)).2 (by omega)

theorem cast_cneg_sq (c : Bool) (a : Nat) (ha : a < P) : ((cneg c a : Nat) : ZMod P) ^ 2 = (a : ZMod P) ^ 2 := by
  cases c with
  | false => rfl
  | true => exact (congrArg (· ^ 2) (cast_fneg a ha.le)).trans (neg_sq _)

theorem onCurve_cneg {x y : Nat} (c : Bool) (hy : y < P) (h : onCurve x y) : onCurve x (cneg c y) := by
  rw [onCurve_iff] at h ⊢
  rwa [cast_cneg_sq c y hy]

theorem fneg_fneg (a : Nat) (ha : a < P) : fneg (fneg a) = a :=
  eq_of_cast_eq _ a (fneg_lt _) ha (by rw [cast_fneg _ (fneg_lt a).le, cast_fneg a ha.le, neg_neg])

/-- An element is the non-negative root of its square with its own sign. -/
theorem cneg_isneg_of_sq_eq {a b : Nat} (ha : a < P) (hb : b < P) (heven : b % 2 = 0)
    (h : (a : ZMod P) ^ 2 = (b : ZMod P) ^ 2) : cneg (isneg a) b = a := by
  have habs : b = fabs a :=
    eq_of_sq_eq_of_even b _ hb (fabs_lt a ha) heven (fabs_even a ha) (h.symm.trans (cast_fabs_sq a ha).symm)
  rw [habs, fabs]
  cases isneg a with
  | false => rfl
  | true => exact fneg_fneg a ha

/-! ## The formats `XC32` and `YC32` -/

theorem flagBit_iff_topBit (b : Buf) : flagBit b = true ↔ topBit b := by
  rw [flagBit_eq, decide_eq_true_iff, topBit]

theorem flagBit_assemble (a : Nat) (f : Bool) (ha : a < P) : flagBit (assemble a f) = f := by
  have hP := P_lt
  rw [flagBit_eq, toNat_assemble a f ha]
  cases f
  · exact decide_eq_false (by rw [if_neg Bool.false_ne_true]; omega)
  · exact decide_eq_true (by rw [if_pos rfl]; omega)

/-- A buffer is its low part and its flag (spec/30 R76, R77). -/
theorem assemble_lowPart_flagBit {b : Buf} (h : lowPart b < P) : assemble (lowPart b) (flagBit b) = b := by
  have hlt := b.isLt
  apply BitVec.eq_of_toNat_eq
  rw [toNat_assemble _ _ h, flagBit_eq, lowPart]
  simp only [decide_eq_true_eq]
  split <;> omega

theorem fdec_magnitude_of_lt {b : Buf} (h : lowPart b < P) : fdec (magnitude b) = some (lowPart b) := by
  rw [magnitude_eq]
  exact if_pos h

theorem fdec_magnitude_of_le {b : Buf} (h : P ≤ lowPart b) : fdec (magnitude b) = none := by
  rw [magnitude_eq]
  exact if_neg h.not_gt

theorem decodeXC32_of_lt {b : Buf} (h : lowPart b < P) : decodeXC32 b = some (flagBit b, lowPart b) := by
  rw [decodeXC32, fdec_magnitude_of_lt h]

theorem decodeXC32_of_le {b : Buf} (h : P ≤ lowPart b) : decodeXC32 b = none := by
  rw [decodeXC32, fdec_magnitude_of_le h]

theorem decodeYC32_of_lt {b : Buf} (h : lowPart b < P) : decodeYC32 b = some (flagBit b, lowPart b) := by
  rw [decodeYC32, fdec_magnitude_of_lt h]

/-! ## The other coordinate, with the sign the operand asks for -/

/-- `y'` of spec/43 R173. -/
def decompressedY (i : Nat) (a : Buf) : Nat := cneg (flagBit a) (decompressRoot i (lowPart a)).2

/-- `x'` of spec/44 R182. -/
def compressedX (i : Nat) (a : Buf) : Nat := cneg (flagBit a) (compressRoot i (lowPart a)).2

theorem decompressedY_lt (i : Nat) (a : Buf) : decompressedY i a < P := cneg_lt _ _ (sqrtRatioWith_lt _ _ _)

theorem isneg_decompressedY {i : Nat} {a : Buf} (h0 : decompressedY i a ≠ 0) : isneg (decompressedY i a) = flagBit a :=
  isneg_cneg _ _ (sqrtRatioWith_lt _ _ _) (sqrtRatioWith_even _ _ _) h0

theorem onCurve_decompressedY {i : Nat} {a : Buf} (hi : rootOfMinusOne i) (h : ∃ y : Nat, onCurve (lowPart a) y) :
    onCurve (lowPart a) (decompressedY i a) :=
  onCurve_cneg _ (sqrtRatioWith_lt _ _ _) (onCurve_decompressRoot i _ hi h)

/-- spec/44 R187: with the parity of `x` in the flag bit, the X coordinate that comes back is `x`. -/
theorem compressedX_of_onCurve {i x : Nat} {a : Buf} (hi : rootOfMinusOne i) (hx : x < P) (h : onCurve x (lowPart a))
    (hflag : flagBit a = isneg x) : compressedX i a = x := by
  rw [compressedX, hflag]
  exact cneg_isneg_of_sq_eq hx (sqrtRatioWith_lt _ _ _) (sqrtRatioWith_even _ _ _)
    (sq_eq_sq_of_onCurve h (onCurve_compressRoot i _ hi ⟨x, h⟩))

theorem compressEnding_of_onCurve {i : Nat} {a : Buf} (hi : rootOfMinusOne i) (hlt : lowPart a < P)
    (h : ∃ x : Nat, onCurve x (lowPart a)) :
    compressEnding i a = .complete .ok (assemble (compressedX i a) (isneg (lowPart a))) 0 0 := by
  rw [compressEnding, decodeYC32_of_lt hlt]
  exact if_pos ((compressRoot_found_iff i _ hi).2 h)

end Sys2Proof.Proofs
end

section
/-! The command `DECOMPRESS` (spec/43). -/
namespace Sys2Proof.Proofs

open Sys2Proof.Machine Sys2Proof.Config Sys2Proof.Safety Sys2Proof.Laws

/-! ## The three ways DECOMPRESS ends (spec/43 R171 to R173) -/

theorem decompressEnding_of_le (i : Nat) {a : Buf} (h : P ≤ lowPart a) :
    decompressEnding i a = .complete .errRange 0 0 0 := by
  rw [decompressEnding, decodeXC32_of_le h]

theorem decompressEnding_of_onCurve {i : Nat} {a : Buf} (hi : rootOfMinusOne i) (hlt : lowPart a < P)
    (h : ∃ y : Nat, onCurve (lowPart a) y) :
    decompressEnding i a = .complete .ok (assemble (decompressedY i a) (isneg (lowPart a))) 0 0 := by
  rw [decompressEnding, decodeXC32_of_lt hlt]
  exact if_pos ((decompressRoot_found_iff i _ hi).2 h)

theorem decompressEnding_of_no_point {i : Nat} {a : Buf} (hi : rootOfMinusOne i) (hlt : lowPart a < P)
    (h : ¬ ∃ y : Nat, onCurve (lowPart a) y) : decompressEnding i a = .complete .negative 0 0 0 := by
  rw [decompressEnding, decodeXC32_of_lt hlt]
  exact if_neg ((decompressRoot_found_iff i _ hi).not.2 h)

/-- Settles O37: the magnitude does not decode, whatever the flag bit is. -/
theorem decompressRejectsLargeMagnitudes : Obligations.DecompressRejectsLargeMagnitudes := by
  intro s h
  exact ⟨_, exec_of_endingOf_complete (by decide) (decompressEnding_of_le blockSqrtM1 h), rfl,
    completedStatus_statusCompleted .errRange 0 0 s.status, sameButResult_complete _ _ _ _ s,
    fun hbusy => by rw [complete_status, hbusy]; decide⟩

/-- Settles O38: the ratio that `DECOMPRESS` forms has a root exactly when `x` is on a point, and the flag bit chooses between
the root and its negation. -/
theorem decompressFindsThePoint : Obligations.DecompressFindsThePoint := by
  intro s hlt
  have hi : rootOfMinusOne blockSqrtM1 := blockSqrtM1_spec
  by_cases hpoint : ∃ y : Nat, onCurve (lowPart s.opa) y
  · have hy := decompressedY_lt blockSqrtM1 s.opa
    refine ⟨_, exec_of_endingOf_complete (by decide) (decompressEnding_of_onCurve hi hlt hpoint),
      sameButResult_complete _ _ _ _ s, fun _ => ?_, fun hnone => absurd hpoint hnone⟩
    simp only [complete_res, complete_status, lowPart_assemble _ _ hy, ← flagBit_iff_topBit, ← isneg_iff]
    exact ⟨onCurve_decompressedY hi hpoint, hy, by rw [flagBit_assemble _ _ hy],
      fun h0 => by rw [isneg_decompressedY h0], completedStatus_statusCompleted .ok 0 0 s.status,
      fun hbusy => by rw [hbusy]; decide⟩
  · exact ⟨_, exec_of_endingOf_complete (by decide) (decompressEnding_of_no_point hi hlt hpoint),
      sameButResult_complete _ _ _ _ s, fun hsome => absurd hsome hpoint, fun _ => ⟨rfl,
        completedStatus_statusCompleted .negative 0 0 s.status, fun hbusy => by rw [complete_status, hbusy]; decide⟩⟩

/-! ## The round trip with COMPRESS (spec/43 R177) -/

theorem complete_outcome (o : OutcomeCode) (r : Buf) (eb : BitVec 5) (bt : BitVec 3) (s : State) :
    (complete o r eb bt s).status.extractLsb' 4 3 = outcomeBits o := by
  obtain ⟨-, -, houtcome, -⟩ := completedStatus_statusCompleted o eb bt s.status
  exact houtcome

/-- `OK` is the outcome on the X coordinate of a point alone. -/
theorem onCurve_of_decompress_ok {s t : State} (h : exec .decompress s = .next t) (hok : t.status.extractLsb' 4 3 = 1) :
    lowPart s.opa < P ∧ (∃ y : Nat, onCurve (lowPart s.opa) y) ∧
      t.res = assemble (decompressedY blockSqrtM1 s.opa) (isneg (lowPart s.opa)) := by
  have hi : rootOfMinusOne blockSqrtM1 := blockSqrtM1_spec
  have hcode {o : OutcomeCode} {r : Buf} (he : decompressEnding blockSqrtM1 s.opa = .complete o r 0 0) :
      t.res = r ∧ outcomeBits o = 1 := by
    rw [exec_of_endingOf_complete (i := .decompress) (by decide) he] at h
    cases h
    exact ⟨rfl, (complete_outcome o r 0 0 s).symm.trans hok⟩
  by_cases hlt : lowPart s.opa < P
  · by_cases hpoint : ∃ y : Nat, onCurve (lowPart s.opa) y
    · exact ⟨hlt, hpoint, (hcode (decompressEnding_of_onCurve hi hlt hpoint)).1⟩
    · exact absurd (hcode (decompressEnding_of_no_point hi hlt hpoint)).2 (by decide)
  · exact absurd (hcode (decompressEnding_of_le _ (not_lt.1 hlt))).2 (by decide)

/-- spec/43 R174(b): the Y coordinate found is 0 exactly at the square roots of −1. -/
theorem decompressedY_eq_zero_iff {i : Nat} {a : Buf} (hi : rootOfMinusOne i) (hlt : lowPart a < P)
    (h : ∃ y : Nat, onCurve (lowPart a) y) : decompressedY i a = 0 ↔ rootOfMinusOne (lowPart a) := by
  have hon := onCurve_decompressedY hi h
  refine ⟨fun h0 => (onCurve_zero_right_iff _ hlt).1 (h0 ▸ hon), fun hroot => ?_⟩
  exact eq_zero_of_onCurve_of_rootOfMinusOne hroot (decompressedY_lt i a) hon

/-- `COMPRESS` of the encoding of a point gives its `x`, with the parity of its `y` in the flag bit. -/
theorem exec_compress_of_onCurve {s : State} {x y : Nat} (hx : x < P) (hy : y < P) (h : onCurve x y)
    (hopa : s.opa = assemble y (isneg x)) : exec .compress s = .next (complete .ok (assemble x (isneg y)) 0 0 s) := by
  have hi : rootOfMinusOne blockSqrtM1 := blockSqrtM1_spec
  have hlow : lowPart s.opa = y := by rw [hopa, lowPart_assemble y _ hy]
  have hflag : flagBit s.opa = isneg x := by rw [hopa, flagBit_assemble y _ hy]
  have hon : onCurve x (lowPart s.opa) := hlow.symm ▸ h
  have hending := compressEnding_of_onCurve hi (hlow.symm ▸ hy) ⟨x, hon⟩
  rw [compressedX_of_onCurve hi hx hon hflag, hlow] at hending
  exact exec_of_endingOf_complete (by decide) hending

/-- Settles O44: `COMPRESS` gives back `x`, with the parity of `y'` in the flag bit. That is the sign asked for, unless `y'` is
0, which has parity 0. -/
theorem decompressThenCompressRoundTrip : Obligations.DecompressThenCompressRoundTrip := by
  intro s t h hok s' hopa
  have hi : rootOfMinusOne blockSqrtM1 := blockSqrtM1_spec
  obtain ⟨hlt, hpoint, hres⟩ := onCurve_of_decompress_ok h hok
  have hy := decompressedY_lt blockSqrtM1 s.opa
  have hzero := decompressedY_eq_zero_iff hi hlt hpoint
  refine ⟨_, exec_compress_of_onCurve hlt hy (onCurve_decompressedY hi hpoint) (hopa.trans hres), complete_outcome _ _ _ _ _,
    fun hkept => ?_, fun ⟨hroot, _⟩ => ?_⟩
  · have hflag : isneg (decompressedY blockSqrtM1 s.opa) = flagBit s.opa := by
      by_cases h0 : decompressedY blockSqrtM1 s.opa = 0
      · have hclear : ¬ topBit s.opa := fun htop => hkept ⟨hzero.1 h0, htop⟩
        rw [h0, Bool.eq_false_iff.2 ((flagBit_iff_topBit _).not.2 hclear)]
        rfl
      · exact isneg_decompressedY h0
    rw [complete_res, hflag, assemble_lowPart_flagBit hlt]
  · rw [complete_res, hzero.2 hroot, toNat_assemble _ _ hlt]
    rfl

end Sys2Proof.Proofs
end

section
/-! The command `COMPRESS` (spec/44). -/
namespace Sys2Proof.Proofs

open Sys2Proof.Machine Sys2Proof.Config Sys2Proof.Safety Sys2Proof.Laws

/-! ## A magnitude at or above `P` (spec/44 R183) -/

theorem decodeYC32_of_le {b : Buf} (h : P ≤ lowPart b) : decodeYC32 b = none := by
  rw [decodeYC32, fdec_magnitude_of_le h]

theorem compressEnding_of_le (i : Nat) {a : Buf} (h : P ≤ lowPart a) :
    compressEnding i a = .complete .errRange 0 0 0 := by
  rw [compressEnding, decodeYC32_of_le h]

/-- Settles O40: the magnitude does not decode, so no root is asked for and no fault is raised. -/
theorem compressRejectsLargeMagnitudes : Obligations.CompressRejectsLargeMagnitudes := by
  intro s h
  refine ⟨_, exec_of_endingOf_complete (by decide) (compressEnding_of_le blockSqrtM1 h), rfl,
    completedStatus_statusCompleted .errRange 0 0 s.status, sameButResult_complete _ _ _ _ s, fun hbusy => ⟨?_, ?_⟩⟩
  · rw [complete_status, hbusy]
    decide
  · exact phase_complete _ _ _ _ (by rw [phase, hbusy]; decide)

/-! ## The point that the operand encodes (spec/44 R180 to R182) -/

theorem compressedX_lt (i : Nat) (a : Buf) : compressedX i a < P := cneg_lt _ _ (sqrtRatioWith_lt _ _ _)

theorem isneg_compressedX {i : Nat} {a : Buf} (h0 : compressedX i a ≠ 0) : isneg (compressedX i a) = flagBit a :=
  isneg_cneg _ _ (sqrtRatioWith_lt _ _ _) (sqrtRatioWith_even _ _ _) h0

theorem onCurve_cneg_left {x y : Nat} (c : Bool) (hx : x < P) (h : onCurve x y) : onCurve (cneg c x) y := by
  rw [onCurve_iff] at h ⊢
  rwa [cast_cneg_sq c x hx]

theorem onCurve_compressedX {i : Nat} {a : Buf} (hi : rootOfMinusOne i) (h : ∃ x : Nat, onCurve x (lowPart a)) :
    onCurve (compressedX i a) (lowPart a) :=
  onCurve_cneg_left _ (sqrtRatioWith_lt _ _ _) (onCurve_compressRoot i _ hi h)

/-- Settles O41: the root found is the X coordinate of a point, and the flag bit chooses between it and its negation, which is
on the curve with the same `y`. -/
theorem compressFindsThePoint : Obligations.CompressFindsThePoint := by
  intro s hlt hpoint
  have hi : rootOfMinusOne blockSqrtM1 := blockSqrtM1_spec
  have hx := compressedX_lt blockSqrtM1 s.opa
  refine ⟨_, exec_of_endingOf_complete (by decide) (compressEnding_of_onCurve hi hlt hpoint),
    sameButResult_complete _ _ _ _ s, ?_⟩
  simp only [complete_res, complete_status, lowPart_assemble _ _ hx, ← flagBit_iff_topBit, ← isneg_iff]
  exact ⟨onCurve_compressedX hi hpoint, hx, by rw [flagBit_assemble _ _ hx],
    fun h0 => by rw [isneg_compressedX h0], completedStatus_statusCompleted .ok 0 0 s.status,
    fun hbusy => by rw [hbusy]; decide⟩

/-! ## The round trip with DECOMPRESS (spec/44 R187) -/

/-- Two points with the same X coordinate have Y coordinates with the same square: the denominator is never 0. -/
theorem sq_eq_sq_of_onCurve_right {x y y' : Nat} (h : onCurve x y) (h' : onCurve x y') :
    (y : ZMod P) ^ 2 = (y' : ZMod P) ^ 2 := by
  have := fact_prime_P
  have hden := (cast_eq_zero_iff _ (fsub_lt (fmul D (fsq x)) 1 (fmul_lt _ _))).not.2 (decompressDenominator_ne_zero x)
  rw [← decompressRatio_iff_onCurve, ← Nat.mod_eq_of_lt (fsub_lt (fneg (fsq x)) 1 (fneg_lt _)), mul_sq_mod_eq_iff] at h h'
  exact mul_left_cancel₀ hden (h.trans h'.symm)

/-- With the parity of `y` in the flag bit, the Y coordinate that comes back is `y`. -/
theorem decompressedY_of_onCurve {i y : Nat} {a : Buf} (hi : rootOfMinusOne i) (hy : y < P) (h : onCurve (lowPart a) y)
    (hflag : flagBit a = isneg y) : decompressedY i a = y := by
  rw [decompressedY, hflag]
  exact cneg_isneg_of_sq_eq hy (sqrtRatioWith_lt _ _ _) (sqrtRatioWith_even _ _ _)
    (sq_eq_sq_of_onCurve_right h (onCurve_decompressRoot i _ hi ⟨y, h⟩))

/-- `DECOMPRESS` of the `XC32` encoding of a point gives its `YC32` encoding. -/
theorem exec_decompress_of_onCurve {s : State} {x y : Nat} (hx : x < P) (hy : y < P) (h : onCurve x y)
    (hopa : s.opa = assemble x (isneg y)) : exec .decompress s = .next (complete .ok (assemble y (isneg x)) 0 0 s) := by
  have hi : rootOfMinusOne blockSqrtM1 := blockSqrtM1_spec
  have hlow : lowPart s.opa = x := by rw [hopa, lowPart_assemble x _ hx]
  have hflag : flagBit s.opa = isneg y := by rw [hopa, flagBit_assemble x _ hx]
  have hon : onCurve (lowPart s.opa) y := hlow.symm ▸ h
  have hending := decompressEnding_of_onCurve hi (hlow.symm ▸ hx) ⟨y, hon⟩
  rw [decompressedY_of_onCurve hi hy hon hflag, hlow] at hending
  exact exec_of_endingOf_complete (by decide) hending

/-- The number that a coordinate and the parity of the other one make (spec/30 R76, R77, R80). -/
theorem toNat_assemble_isneg {a : Nat} (b : Nat) (ha : a < P) : (assemble a (isneg b)).toNat = a + b % 2 * 2 ^ 255 := by
  rw [toNat_assemble _ _ ha]
  simp only [isneg_iff]
  split <;> omega

/-- Settles O43: the operand is the `YC32` encoding of the point, and each command turns one encoding into the other. -/
theorem compressThenDecompressRoundTrip : Obligations.CompressThenDecompressRoundTrip := by
  intro s x y hx hy h hopa
  have henc : s.opa = assemble y (isneg x) := BitVec.eq_of_toNat_eq (hopa.trans (toNat_assemble_isneg x hy).symm)
  refine ⟨_, exec_compress_of_onCurve hx hy h henc, complete_outcome _ _ _ _ _, toNat_assemble_isneg y hx, fun s' hs' => ?_⟩
  exact ⟨_, exec_decompress_of_onCurve hx hy h hs', complete_outcome _ _ _ _ _, henc.symm⟩

end Sys2Proof.Proofs
end

section
/-! The command `LEGACY_CONVERT` (spec/45). -/
namespace Sys2Proof.Proofs

open Sys2Proof.Machine Sys2Proof.Config Sys2Proof.Safety Sys2Proof.Laws

/-! ## The format `LX32` (spec/30 R78, spec/45 R190, R191) -/

theorem magnitude_of_not_topBit {b : Buf} (h : ¬ topBit b) : magnitude b = b.toNat := by
  rw [magnitude_eq]
  exact Nat.mod_eq_of_lt (not_le.1 h)

theorem not_topBit_of_lt {b : Buf} (h : b.toNat < P) : ¬ topBit b := not_le.2 (h.trans P_lt)

theorem decodeLX32_of_topBit {b : Buf} (h : topBit b) : decodeLX32 b = .error .errFlag :=
  if_pos ((flagBit_iff_topBit b).2 h)

theorem decodeLX32_of_not_topBit {b : Buf} (h : ¬ topBit b) :
    decodeLX32 b = if P - 1 < b.toNat then .error .errRange else .ok b.toNat := by
  rw [decodeLX32, if_neg ((flagBit_iff_topBit b).not.2 h), magnitude_of_not_topBit h, legacyBound]

/-! ## The three ways LEGACY_CONVERT ends (spec/45 R190 to R194) -/

theorem legacyConvertEnding_of_topBit (iso : Nat) {a : Buf} (h : topBit a) :
    legacyConvertEnding iso a = .complete .errFlag 0 31 7 := by
  rw [legacyConvertEnding, decodeLX32_of_topBit h]

theorem legacyConvertEnding_of_gt (iso : Nat) {a : Buf} (hclear : ¬ topBit a) (h : P - 1 < a.toNat) :
    legacyConvertEnding iso a = .complete .errRange 0 0 0 := by
  rw [legacyConvertEnding, decodeLX32_of_not_topBit hclear, if_pos h]

theorem legacyConvertEnding_of_lt (iso : Nat) {a : Buf} (h : a.toNat < P) :
    legacyConvertEnding iso a = .complete .ok (assemble (fmul a.toNat iso) false) 0 0 := by
  rw [legacyConvertEnding, decodeLX32_of_not_topBit (not_topBit_of_lt h), if_neg (by omega)]

/-- An accepted operand is multiplied by `ISO_FACTOR`; nothing else decides the answer. -/
theorem exec_legacyConvert_of_lt {s : State} (h : s.opa.toNat < P) :
    exec .legacyConvert s = .next (complete .ok (assemble (fmul s.opa.toNat blockIsoFactor) false) 0 0 s) :=
  exec_of_endingOf_complete (by decide) (legacyConvertEnding_of_lt blockIsoFactor h)

/-- With a clear flag the assembled result is the number itself (spec/45 R193). -/
theorem toNat_assemble_false {a : Nat} (ha : a < P) : (assemble a false).toNat = a := toNat_assemble a false ha

/-- The number in `RES` (spec/45 R192, R193). -/
theorem toNat_res_of_exec_legacyConvert {s t : State} (h : s.opa.toNat < P) (ht : exec .legacyConvert s = .next t) :
    t.res.toNat = fmul s.opa.toNat blockIsoFactor := by
  rw [exec_legacyConvert_of_lt h] at ht
  cases ht
  exact toNat_assemble_false (fmul_lt _ _)

/-- Settles O45: the two checks in their order, then the product. -/
theorem legacyConvertResult : Obligations.LegacyConvertResult := by
  refine ⟨decode_encode .legacyConvert, fun s => ?_⟩
  by_cases htop : topBit s.opa
  · have hge : ¬ s.opa.toNat ≤ P - 1 := fun hle => not_topBit_of_lt (Nat.lt_of_le_pred P_pos hle) htop
    exact ⟨_, exec_of_endingOf_complete (by decide) (legacyConvertEnding_of_topBit blockIsoFactor htop),
      sameButResult_complete _ _ _ _ s,
      fun _ => ⟨rfl, completedStatus_statusCompleted .errFlag 31 7 s.status,
        fun hbusy => by rw [complete_status, hbusy]; decide⟩,
      fun hclear => absurd htop hclear, fun hle => absurd hle hge⟩
  by_cases hgt : P - 1 < s.opa.toNat
  · exact ⟨_, exec_of_endingOf_complete (by decide) (legacyConvertEnding_of_gt blockIsoFactor htop hgt),
      sameButResult_complete _ _ _ _ s, fun hset => absurd hset htop,
      fun _ _ => ⟨rfl, completedStatus_statusCompleted .errRange 0 0 s.status,
        fun hbusy => by rw [complete_status, hbusy]; decide⟩,
      fun hle => absurd hle hgt.not_ge⟩
  · have hlt : s.opa.toNat < P := Nat.lt_of_le_pred P_pos (not_lt.1 hgt)
    have hexec := exec_legacyConvert_of_lt hlt
    have hres := toNat_res_of_exec_legacyConvert hlt hexec
    exact ⟨_, hexec, sameButResult_complete _ _ _ _ s,
      fun hset => absurd hset htop, fun _ h => absurd h hgt,
      fun _ => ⟨hres, not_topBit_of_lt (hres.trans_lt (fmul_lt _ _)), completedStatus_statusCompleted .ok 0 0 s.status,
        fun hbusy => by rw [complete_status, hbusy]; decide⟩⟩

/-! ## Multiplication by a field element other than 0 (spec/45 R195) -/

theorem fmul_sub_one_left (c : Nat) (h0 : 0 < c) (hc : c < P) : fmul (P - 1) c = P - c := by
  refine eq_of_cast_eq _ _ (fmul_lt _ _) (Nat.sub_lt P_pos h0) ?_
  rw [cast_fmul, cast_P_sub_one, Nat.cast_sub hc.le, ZMod.natCast_self, neg_one_mul, zero_sub]

theorem eq_of_fmul_eq_fmul_right {a b c : Nat} (ha : a < P) (hb : b < P) (h0 : 0 < c) (hc : c < P)
    (h : fmul a c = fmul b c) : a = b := by
  have := fact_prime_P
  have hne : (c : ZMod P) ≠ 0 := (cast_eq_zero_iff c hc).not.2 h0.ne'
  have hcast := congrArg (Nat.cast : Nat → ZMod P) h
  rw [cast_fmul, cast_fmul] at hcast
  exact eq_of_cast_eq a b ha hb (mul_right_cancel₀ hne hcast)

/-- Every field element is a multiple of `c`: divide by `c`, with the inverse of spec/41 R131. -/
theorem fmul_fmul_fpow_sub_two {c r : Nat} (h0 : 0 < c) (hc : c < P) (hr : r < P) :
    fmul (fmul r (fpow c (P - 2))) c = r := by
  have hinv := (fmul_eq_one_iff _ _).1 (fmul_fpow_sub_two c h0 hc)
  refine eq_of_cast_eq _ r (fmul_lt _ _) hr ?_
  rw [cast_fmul, cast_fmul, mul_assoc, mul_comm _ (c : ZMod P), hinv, mul_one]

theorem exists_opa_toNat {m : Nat} (hm : m < P) : ∃ s : State, s.opa.toNat = m :=
  ⟨{ State.reset with opa := fenc m }, toNat_fenc m hm⟩

/-- Settles O46: on accepted operands the command is multiplication by `ISO_FACTOR`, which is not 0 and so can be divided by. -/
theorem legacyConvertIsABijection : Obligations.LegacyConvertIsABijection := by
  obtain ⟨hpos, hlt⟩ := blockIsoFactor_range
  refine ⟨fun s hs => ?_, fun s hs => ?_, fun s s' t t' hs hs' ht ht' hres => ?_, fun r hr => ?_⟩
  · have hzero : s.opa.toNat = 0 := congrArg BitVec.toNat hs
    have haccepted : s.opa.toNat < P := hzero.trans_lt P_pos
    have hexec := exec_legacyConvert_of_lt haccepted
    refine ⟨_, hexec, BitVec.eq_of_toNat_eq ?_, complete_outcome _ _ _ _ _⟩
    rw [toNat_res_of_exec_legacyConvert haccepted hexec, hzero, fmul, Nat.zero_mul, Nat.zero_mod]
    rfl
  · have haccepted : s.opa.toNat < P := hs.trans_lt (Nat.pred_lt P_pos.ne')
    have hexec := exec_legacyConvert_of_lt haccepted
    refine ⟨_, hexec, ?_, complete_outcome _ _ _ _ _⟩
    rw [toNat_res_of_exec_legacyConvert haccepted hexec, hs, fmul_sub_one_left _ hpos hlt]
  · have hprod := congrArg BitVec.toNat hres
    rw [toNat_res_of_exec_legacyConvert hs ht, toNat_res_of_exec_legacyConvert hs' ht'] at hprod
    exact BitVec.eq_of_toNat_eq (eq_of_fmul_eq_fmul_right hs hs' hpos hlt hprod)
  · have hm := fmul_lt r (fpow blockIsoFactor (P - 2))
    obtain ⟨s, hs⟩ := exists_opa_toNat hm
    have haccepted : s.opa.toNat < P := hs.trans_lt hm
    have hexec := exec_legacyConvert_of_lt haccepted
    refine ⟨s, _, haccepted, hexec, ?_⟩
    rw [toNat_res_of_exec_legacyConvert haccepted hexec, hs, fmul_fmul_fpow_sub_two hpos hlt hr]

end Sys2Proof.Proofs
end

section
/-! The command `ERASE`, the completion of a word that is no command, and the commands on the registers that `ERASE` leaves
(spec/46). -/
namespace Sys2Proof.Proofs

open Sys2Proof.Machine Sys2Proof.Config Sys2Proof.Safety Sys2Proof.Laws

/-! ## A word that is no command (spec/46 R202) -/

/-- The decoder refuses whatever is not the word of a command (spec/30 R73). -/
theorem decode_error_of_ne_encode {w : Word} (h : ∀ i, w ≠ encode i) : ∃ e, decode w = .error e := by
  cases hdecode : decode w with
  | ok i => exact absurd (eq_encode_of_decode hdecode) (h i)
  | error e => exact ⟨e, rfl⟩

/-- Settles O19: the decoder refuses the word, so the engine's turn is its completion with `ERR_ILLEGAL`, and a block in phase
`BUSY` has no fault that would keep it from `IDLE`. -/
theorem illegalWordCompletes : Obligations.IllegalWordCompletes := by
  intro s rest hp hbusy hhost h1 h2 h3 h4 h5
  have hnot : ∀ i, s.cmdr ≠ encode i := fun i => by
    cases i with
    | sqrtRatio => exact h1
    | decompress => exact h2
    | compress => exact h3
    | legacyConvert => exact h4
    | erase => exact h5
  obtain ⟨e, he⟩ := decode_error_of_ne_encode hnot
  have hstep : step s = .next (complete .errIllegal 0 0 0 (withHost rest s)) :=
    (step_engine s rest hhost).trans (engineTurn_of_illegal (s := withHost rest s) hp hbusy he)
  have hnotFault : phase (withHost rest s) ≠ .fault := fun hfault => by
    cases hbusy.symm.trans hfault
  exact ⟨_, hstep, rfl, completedStatus_statusCompleted .errIllegal 0 0 s.status, sameButResult_complete _ _ _ _ _,
    phase_complete _ _ _ _ hnotFault, fun hst => by rw [complete_status, withHost_status, hst]; decide⟩

/-! ## ERASE (spec/46 R200, R201) -/

/-- `ERASE` is a normal completion over the two erased operands. -/
theorem exec_erase (s : State) : exec .erase s = .next (complete .ok identityEnc 0 0 (eraseOperands s)) :=
  exec_eq .erase s

/-- Settles O47: the fields of a completion with `OK` over the erased operands. -/
theorem eraseWritesTheIdentityEncoding : Obligations.EraseWritesTheIdentityEncoding :=
  ⟨decode_encode .erase, fun s => ⟨_, exec_erase s, rfl, rfl, rfl, completedStatus_statusCompleted .ok 0 0 s.status,
    fun hst => by rw [complete_status, eraseOperands_status, hst]; decide, rfl, rfl, rfl, rfl, rfl⟩⟩

/-- Settles O48: the erased operands are the same in both states, and the completion reads no data register. -/
theorem eraseForgetsTheDataRegisters : Obligations.EraseForgetsTheDataRegisters := by
  intro s s' t t' hstatus hcmdr hpower ht ht'
  rw [exec_erase] at ht ht'
  cases ht
  cases ht'
  exact finish_sameRegisters (.complete .ok identityEnc 0 0) (s := eraseOperands s) (s' := eraseOperands s') rfl rfl
    hstatus hcmdr hpower

/-! ## The commands on the erased registers (spec/46 R203) -/

/-- The square roots of 1 are 1 and `P − 1`; 1 is odd, so the non-negative one is `P − 1` (spec/42 R156). -/
theorem sqrtRatioWith_one_one (i : Nat) (hi : rootOfMinusOne i) : sqrtRatioWith i 1 1 = (true, P - 1) := by
  have hone : 1 < P := prime_P.one_lt
  have hodd := P_odd
  have hfound : (sqrtRatioWith i 1 1).1 = true :=
    (sqrtRatioWith_found_iff_exists i 1 1 hi hone).2 ⟨1, Nat.mod_eq_of_lt hone⟩
  have hsq : ((sqrtRatioWith i 1 1).2 : ZMod P) ^ 2 = ((P - 1 : Nat) : ZMod P) ^ 2 := by
    have hroot := sqrtRatioWith_of_found i 1 1 hi.2 hone hfound
    rw [Nat.cast_one, one_mul] at hroot
    rw [hroot, cast_P_sub_one, neg_one_sq]
  exact Prod.ext hfound (eq_of_sq_eq_of_even _ _ (sqrtRatioWith_lt i 1 1) (by omega) (sqrtRatioWith_even i 1 1)
    (by omega) hsq)

/-- At `x = 1` the curve equation is `(1 − D)·y² = 2`, and `2·(1 − D)` is a non-residue (spec/30 R81). -/
theorem not_onCurve_one (y : Nat) : ¬ onCurve 1 y := by
  have hnonresidue : ¬ IsSquare ((fmul 2 (fsub 1 D) : Nat) : ZMod P) :=
    not_isSquare_of_fpow _ (fmul_lt _ _) (by decide) (by decide +kernel)
  rw [cast_fmul, cast_fsub 1 D (by decide), Nat.cast_one, Nat.cast_ofNat] at hnonresidue
  intro h
  rw [onCurve_iff, Nat.cast_one] at h
  exact hnonresidue ⟨(1 - D) * y, by linear_combination (D - 1) * h⟩

/-- The neutral point (spec/44 R186, spec/46 R203). -/
theorem onCurve_zero_one : onCurve 0 1 := rfl

/-- The identity encoding as a `YC32` buffer: `y = 1`, with the sign of `x = 0` (spec/30 R77). -/
theorem assemble_one_isneg_zero : assemble 1 (isneg 0) = 1 :=
  BitVec.eq_of_toNat_eq (toNat_assemble_isneg 0 prime_P.one_lt)

/-- Settles O49: the integer 1 is accepted in every format. Its root is that of the ratio 1, it is the X coordinate of no point,
it is the Y coordinate of the neutral point, and a factor of 1 changes nothing. -/
theorem commandsOnErasedRegisters : Obligations.CommandsOnErasedRegisters := by
  intro s hopa hopb
  have hi : rootOfMinusOne blockSqrtM1 := blockSqrtM1_spec
  have hone : 1 < P := prime_P.one_lt
  have hopaNat : s.opa.toNat = 1 := congrArg BitVec.toNat hopa
  have hopbNat : s.opb.toNat = 1 := congrArg BitVec.toNat hopb
  have hopaLt : s.opa.toNat < P := hopaNat.trans_lt hone
  have hlow : lowPart s.opa = 1 := by rw [lowPart, hopaNat]; rfl
  refine ⟨?sqrtRatio, ?decompress, ?compress, ?legacyConvert⟩
  case sqrtRatio =>
    have hending := sqrtRatioEnding_of_lt blockSqrtM1 hopaLt (hopbNat.trans_lt hone)
    rw [hopaNat, hopbNat, sqrtRatioWith_one_one _ hi] at hending
    exact ⟨_, exec_of_endingOf_complete (by decide) hending, toNat_fenc _ (Nat.pred_lt P_pos.ne'),
      complete_outcome _ _ _ _ _⟩
  case decompress =>
    have hnone : ¬ ∃ y : Nat, onCurve (lowPart s.opa) y := by
      rintro ⟨y, h⟩
      exact not_onCurve_one y (hlow ▸ h)
    exact ⟨_, exec_of_endingOf_complete (by decide) (decompressEnding_of_no_point hi (hlow.trans_lt hone) hnone), rfl,
      complete_outcome _ _ _ _ _⟩
  case compress =>
    exact ⟨_, exec_compress_of_onCurve P_pos hone onCurve_zero_one (hopa.trans assemble_one_isneg_zero.symm),
      toNat_assemble_isneg 1 P_pos, complete_outcome _ _ _ _ _⟩
  case legacyConvert =>
    have hexec := exec_legacyConvert_of_lt hopaLt
    refine ⟨_, hexec, ?_, complete_outcome _ _ _ _ _⟩
    rw [toNat_res_of_exec_legacyConvert hopaLt hexec, hopaNat, fmul, one_mul, Nat.mod_eq_of_lt blockIsoFactor_range.2]

end Sys2Proof.Proofs
end

section
/-! Reset and the loss of power (spec/70 R230 to R232), and the engine's turn on an empty schedule (R241). -/
namespace Sys2Proof.Proofs

open Sys2Proof.Machine Sys2Proof.Safety Sys2Proof.Laws

/-! ## Reset (spec/70 R230, R231) -/

@[simp] theorem phase_resetBlock (s : State) : phase (resetBlock s) = .idle := by
  rw [phase, resetBlock_status]
  decide

/-- No register after a reset is made from the state before it. -/
theorem sameRegisters_resetBlock (s s' : State) : sameRegisters (resetBlock s) (resetBlock s') :=
  ⟨rfl, rfl, rfl, rfl, rfl, rfl⟩

/-- Settles O5: the step is the reset of the block with the rest of the schedule, and looks at no access made meanwhile. -/
theorem resetFromAnyState : Obligations.ResetFromAnyState := by
  intro s during rest hhost
  exact ⟨_, step_reset s during rest hhost, resetBlock_opa _, resetBlock_opb _, resetBlock_res _, resetBlock_status _,
    resetBlock_cmdr _, phase_resetBlock _, resetBlock_power _, resetBlock_host _, resetBlock_replies _⟩

/-- Settles O6: both steps are resets of the block, whatever it held. -/
theorem resetForgetsEverything : Obligations.ResetForgetsEverything := by
  intro s s' d d' rest rest' hhost hhost'
  exact ⟨_, _, step_reset s d rest hhost, step_reset s' d' rest' hhost', sameRegisters_resetBlock _ _⟩

/-! ## The loss of power (spec/70 R232, spec/60 R227) -/

/-- Before the first reset an access to the window has no meaning, well formed or not (log entry 6). -/
theorem hostAccess_of_unreset {a : Access} {s : State} (hp : s.power = .unreset) (hoff : a.off < 128) :
    hostAccess a s = .refused .beforeReset := by
  have hin : a.inWindow = true := decide_eq_true hoff
  simp [hostAccess, hin, hp]

/-- The engine of an unreset block takes no step (log entry 6). -/
theorem engineTurn_of_unreset {s : State} (hp : s.power = .unreset) : engineTurn exec s = .next s :=
  engineTurn_of_not_enabled fun ⟨hready, _⟩ => by cases hp.symm.trans hready

/-- Settles O15: of the steps of an unreset block the engine's turn and a power loss leave it unreset, and an access answers no
state. -/
theorem powerLossNeedsAReset : Obligations.PowerLossNeedsAReset := by
  refine ⟨fun s rest hhost => ?_, fun s a rest hp hoff hhost => ?_, fun s t hp hstep hready => ?_⟩
  · exact ⟨_, step_powerLoss s rest hhost, losePower_power _, losePower_host _, losePower_replies _⟩
  · rw [step_access s a rest hhost]
    exact hostAccess_of_unreset (s := withHost rest s) hp hoff
  · rcases step_cases hstep with ⟨-, rest, hturn⟩ | ⟨a, rest, -, hready', -⟩ | ⟨d, rest, hhost, -⟩ | ⟨rest, -, rfl⟩
    · rw [engineTurn_of_unreset (s := withHost rest s) hp] at hturn
      cases hturn
      cases hp.symm.trans hready
    · cases hp.symm.trans hready'
    · exact ⟨d, rest, hhost⟩
    · cases hready

/-! ## An empty schedule (spec/70 R241) -/

/-- Settles O20: past a lone engine point the schedule is empty again. -/
theorem emptyScheduleIsAnEnginePoint : Obligations.EmptyScheduleIsAnEnginePoint := by
  intro s hhost
  have hpast : withHost [] { s with host := [.engine] } = s := by
    rw [← hhost]
    rfl
  rw [step_nil s hhost, step_engine { s with host := [.engine] } [] rfl, hpast]

end Sys2Proof.Proofs
end

section
/-! The fault (spec/60 R212 to R215): what entering it writes, the command that does, and the phase it leaves. -/
namespace Sys2Proof.Proofs

open Sys2Proof.Machine Sys2Proof.Config Sys2Proof.Safety Sys2Proof.Laws

/-! ## Fault entry (spec/60 R214) -/

/-- What fault entry does to `STATUS`, in the words of the statements. -/
theorem faultStatus_statusFaulted (st : Word) : statusFaulted st (faultStatus st) := by
  have hbit := faultStatus_getLsbD st
  refine ⟨hbit 0 (by decide), hbit 1 (by decide), hbit 3 (by decide), ?outcome,
    extractLsb'_eq_zero_of_getLsbD fun i hlo hhi => ?errByte, extractLsb'_eq_zero_of_getLsbD fun i hlo hhi => ?errBit,
    hbit 2 (by decide), hbit 7 (by decide), ?reserved⟩
  case errByte => rw [hbit i (by omega), if_neg (by omega), if_neg (by omega), if_neg (by omega), if_pos (by omega)]
  case errBit => rw [hbit i (by omega), if_neg (by omega), if_neg (by omega), if_pos (by omega)]
  case outcome =>
    apply BitVec.eq_of_getLsbD_eq
    intro i hi
    rw [BitVec.getLsbD_extractLsb', hbit _ (by omega), if_neg (by omega), if_neg (by omega), if_neg (by omega),
      if_neg (by omega), if_pos (by omega)]
    interval_cases i <;> rfl
  case reserved =>
    apply BitVec.eq_of_getLsbD_eq
    intro i hi
    rw [BitVec.getLsbD_extractLsb', BitVec.getLsbD_extractLsb', hbit _ (by omega), if_neg (by omega),
      if_neg (by omega), if_neg (by omega), if_neg (by omega), if_neg (by omega), if_neg (by omega)]

theorem sameButResult_raiseFault (c : FaultCause) (s : State) : sameButResult s (raiseFault c s) :=
  ⟨rfl, rfl, rfl, rfl, rfl, rfl, rfl⟩

/-! ## COMPRESS off the curve (spec/44 R184) -/

theorem compressEnding_of_no_point {i : Nat} {a : Buf} (hi : rootOfMinusOne i) (hlt : lowPart a < P)
    (h : ¬ ∃ x : Nat, onCurve x (lowPart a)) : compressEnding i a = .raise .sqrtFailed := by
  rw [compressEnding, decodeYC32_of_lt hlt]
  exact if_neg ((compressRoot_found_iff i _ hi).not.2 h)

theorem exec_compress_of_no_point {s : State} (hlt : lowPart s.opa < P) (h : ¬ ∃ x : Nat, onCurve x (lowPart s.opa)) :
    exec .compress s = .next (raiseFault .sqrtFailed s) := by
  have hending : endingOf .compress s = .raise .sqrtFailed := compressEnding_of_no_point blockSqrtM1_spec hlt h
  rw [exec_eq, hending]
  rfl

/-- Settles O42: the ratio that `COMPRESS` forms has no root, so the command is fault entry and nothing else. -/
theorem compressFaultsOffTheCurve : Obligations.CompressFaultsOffTheCurve := by
  intro s hlt hnone
  exact ⟨_, exec_compress_of_no_point hlt hnone, raiseFault_res _ s, faultStatus_statusFaulted s.status,
    sameButResult_raiseFault _ s, phase_raiseFault _ s, fun hbusy => by rw [raiseFault_status, hbusy]; decide⟩

/-! ## Phase FAULT (spec/60 R215) -/

/-- Outside phase `BUSY` an engine point changes no register. -/
theorem passesOver_engine {ph : Phase} (hph : ph ≠ .busy) : passesOver ph .engine := by
  rintro s rest - rfl hhost
  exact ⟨_, (engineActsOnlyInBusy s fun ⟨_, hbusy⟩ => hph hbusy).2 rest hhost, sameRegisters_refl s, rfl⟩

/-- Settles O23: a block in phase `FAULT` passes over every engine point and every accepted access. -/
theorem faultPhaseIsAbsorbing : Obligations.FaultPhaseIsAbsorbing := by
  intro sched rest s hp hfault hsched hhost
  refine run_of_passesOver sched rest (fun h hmem => ?_) s hp hfault hhost
  rcases hsched h hmem with rfl | ⟨a, rfl, hwf⟩
  · exact passesOver_engine (by decide)
  · exact passesOver_access (by decide) hwf

end Sys2Proof.Proofs
end

section
/-! Which command can end in which outcome (spec/60 R211). -/
namespace Sys2Proof.Proofs

open Sys2Proof.Machine Sys2Proof.Config Sys2Proof.Safety Sys2Proof.Laws

/-! ## The words that endings leave (spec/10 R30) -/

/-- The status word that an ending leaves of the busy word. -/
def endingWord : Ending → Word
  | .complete o _ eb bt => completedStatus o eb bt 1
  | .raise _ => faultStatus 1

theorem finish_status_of_busyWord (e : Ending) {s : State} (h : s.status = 1) : (finish e s).status = endingWord e := by
  cases e with
  | complete o r eb bt => exact congrArg (completedStatus o eb bt) h
  | raise c => exact congrArg faultStatus h

theorem endingWord_ok (r : Buf) : endingWord (.complete .ok r 0 0) = 0x00000012 := by
  rw [endingWord]
  decide

theorem endingWord_negative (r : Buf) : endingWord (.complete .negative r 0 0) = 0x00000022 := by
  rw [endingWord]
  decide

theorem endingWord_errFlag (r : Buf) : endingWord (.complete .errFlag r 31 7) = 0x0000FF32 := by
  rw [endingWord]
  decide

theorem endingWord_errRange (r : Buf) : endingWord (.complete .errRange r 0 0) = 0x00000042 := by
  rw [endingWord]
  decide

theorem endingWord_raise (c : FaultCause) : endingWord (.raise c) = 0x0000007A := by
  rw [endingWord]
  decide

/-- A block with the busy word and the operands `a` and `b`. -/
def busyOn (a b : Buf) : State := { State.reset with status := 1, opa := a, opb := b }

/-- The words in which a command can end from the busy word are those of its endings, over all operands. -/
theorem exists_run_iff (i : Instr) (c : Word) :
    (∃ s t : State, s.status = 0x00000001 ∧ exec i s = .next t ∧ t.status = c) ↔
      ∃ a b : Buf, endingWord (endingOf i (busyOn a b)) = c := by
  have hword (s : State) (h : s.status = 1) :
      (finish (endingOf i s) (endingBase i s)).status = endingWord (endingOf i s) :=
    finish_status_of_busyWord _ ((endingBase_status i s).trans h)
  constructor
  · rintro ⟨s, t, hst, hexec, rfl⟩
    rw [exec_eq] at hexec
    cases hexec
    exact ⟨s.opa, s.opb, by rw [hword s hst, endingOf_congr i (s := s) (s' := busyOn s.opa s.opb) rfl rfl]⟩
  · rintro ⟨a, b, rfl⟩
    exact ⟨busyOn a b, _, rfl, exec_eq i _, hword (busyOn a b) rfl⟩

/-- For a command that ends as `OPA` alone says, the words of its endings over all `OPA`. -/
theorem exists_run_iff_of_opa {i : Instr} {e : Buf → Ending} (he : ∀ s, endingOf i s = e s.opa) (c : Word) :
    (∃ s t : State, s.status = 0x00000001 ∧ exec i s = .next t ∧ t.status = c) ↔ ∃ a : Buf, endingWord (e a) = c := by
  simp only [exists_run_iff, he]
  exact exists_congr fun a => ⟨fun ⟨_, hword⟩ => hword, fun hword => ⟨0, hword⟩⟩

/-! ## Operands for each ending -/

/-- A point with Y coordinate a square root of −1 would give one with X coordinate 1: multiplication by the root exchanges the
coordinates. -/
theorem not_onCurve_rootOfMinusOne {i : Nat} (hi : rootOfMinusOne i) (x : Nat) : ¬ onCurve x i := fun h => by
  have hsq := ((rootOfMinusOne_iff i).1 hi).2
  refine not_onCurve_one (i * x) ?_
  rw [onCurve_iff] at h ⊢
  push_cast
  linear_combination h + ((x : ZMod P) ^ 2 - 1) * hsq

theorem le_lowPart_ofNat_P : P ≤ lowPart (BitVec.ofNat 256 P) := by decide

/-- No multiple of 0 is 1. -/
theorem sqrtRatioWith_one_zero_not_found {i : Nat} (hi : rootOfMinusOne i) : (sqrtRatioWith i 1 0).1 = false :=
  Bool.eq_false_iff.2 ((sqrtRatioWith_found_iff_exists i 1 0 hi prime_P.one_lt).not.2 (by simp))

/-! ## The words of each command (spec/60 R211) -/

theorem sqrtRatio_word_iff {i : Nat} (hi : rootOfMinusOne i) (c : Word) :
    (∃ a b : Buf, endingWord (sqrtRatioEnding i a b) = c) ↔ c = 0x00000012 ∨ c = 0x00000022 ∨ c = 0x00000042 := by
  have hone : (1 : Buf).toNat < P := by decide
  constructor
  · rintro ⟨a, b, rfl⟩
    by_cases hle : P ≤ a.toNat ∨ P ≤ b.toNat
    · rw [sqrtRatioEnding_of_le i hle, endingWord_errRange]
      decide
    · obtain ⟨ha, hb⟩ := not_or.1 hle
      rw [sqrtRatioEnding_of_lt i (not_le.1 ha) (not_le.1 hb)]
      cases (sqrtRatioWith i a.toNat b.toNat).1 with
      | true => exact .inl (endingWord_ok _)
      | false => exact .inr (.inl (endingWord_negative _))
  · rintro (rfl | rfl | rfl)
    · refine ⟨1, 1, ?_⟩
      have hfound : (sqrtRatioWith i (1 : Buf).toNat (1 : Buf).toNat).1 = true :=
        congrArg Prod.fst (sqrtRatioWith_one_one i hi)
      rw [sqrtRatioEnding_of_lt i hone hone, hfound]
      exact endingWord_ok _
    · refine ⟨1, 0, ?_⟩
      have hnotFound : (sqrtRatioWith i (1 : Buf).toNat (0 : Buf).toNat).1 = false := sqrtRatioWith_one_zero_not_found hi
      rw [sqrtRatioEnding_of_lt i (b := 0) hone P_pos, hnotFound]
      exact endingWord_negative _
    · exact ⟨BitVec.ofNat 256 P, 0, by rw [sqrtRatioEnding_of_le i (.inl (by decide)), endingWord_errRange]⟩

theorem decompress_word_iff {i : Nat} (hi : rootOfMinusOne i) (c : Word) :
    (∃ a : Buf, endingWord (decompressEnding i a) = c) ↔ c = 0x00000012 ∨ c = 0x00000022 ∨ c = 0x00000042 := by
  constructor
  · rintro ⟨a, rfl⟩
    by_cases hle : P ≤ lowPart a
    · rw [decompressEnding_of_le i hle, endingWord_errRange]
      decide
    by_cases hpoint : ∃ y : Nat, onCurve (lowPart a) y
    · rw [decompressEnding_of_onCurve hi (not_le.1 hle) hpoint, endingWord_ok]
      decide
    · rw [decompressEnding_of_no_point hi (not_le.1 hle) hpoint, endingWord_negative]
      decide
  · rintro (rfl | rfl | rfl)
    · exact ⟨0, by rw [decompressEnding_of_onCurve (a := 0) hi P_pos ⟨1, onCurve_zero_one⟩, endingWord_ok]⟩
    · have hnone : ¬ ∃ y : Nat, onCurve (lowPart (1 : Buf)) y := fun ⟨y, h⟩ => not_onCurve_one y h
      exact ⟨1, by rw [decompressEnding_of_no_point (a := 1) hi prime_P.one_lt hnone, endingWord_negative]⟩
    · exact ⟨_, by rw [decompressEnding_of_le i le_lowPart_ofNat_P, endingWord_errRange]⟩

theorem compress_word_iff {i : Nat} (hi : rootOfMinusOne i) (c : Word) :
    (∃ a : Buf, endingWord (compressEnding i a) = c) ↔ c = 0x00000012 ∨ c = 0x00000042 ∨ c = 0x0000007A := by
  constructor
  · rintro ⟨a, rfl⟩
    by_cases hle : P ≤ lowPart a
    · rw [compressEnding_of_le i hle, endingWord_errRange]
      decide
    by_cases hpoint : ∃ x : Nat, onCurve x (lowPart a)
    · rw [compressEnding_of_onCurve hi (not_le.1 hle) hpoint, endingWord_ok]
      decide
    · rw [compressEnding_of_no_point hi (not_le.1 hle) hpoint, endingWord_raise]
      decide
  · rintro (rfl | rfl | rfl)
    · exact ⟨1, by rw [compressEnding_of_onCurve (a := 1) hi prime_P.one_lt ⟨0, onCurve_zero_one⟩, endingWord_ok]⟩
    · exact ⟨_, by rw [compressEnding_of_le i le_lowPart_ofNat_P, endingWord_errRange]⟩
    · have hlow : lowPart (fenc i) = i := lowPart_fenc i hi.1
      have hnone : ¬ ∃ x : Nat, onCurve x (lowPart (fenc i)) := fun ⟨x, h⟩ => not_onCurve_rootOfMinusOne hi x (hlow ▸ h)
      exact ⟨_, by rw [compressEnding_of_no_point hi (hlow.trans_lt hi.1) hnone, endingWord_raise]⟩

theorem legacyConvert_word_iff (iso : Nat) (c : Word) :
    (∃ a : Buf, endingWord (legacyConvertEnding iso a) = c) ↔ c = 0x00000012 ∨ c = 0x0000FF32 ∨ c = 0x00000042 := by
  constructor
  · rintro ⟨a, rfl⟩
    by_cases htop : topBit a
    · rw [legacyConvertEnding_of_topBit iso htop, endingWord_errFlag]
      decide
    by_cases hgt : P - 1 < a.toNat
    · rw [legacyConvertEnding_of_gt iso htop hgt, endingWord_errRange]
      decide
    · rw [legacyConvertEnding_of_lt iso (Nat.lt_of_le_pred P_pos (not_lt.1 hgt)), endingWord_ok]
      decide
  · rintro (rfl | rfl | rfl)
    · exact ⟨0, by rw [legacyConvertEnding_of_lt iso (a := 0) P_pos, endingWord_ok]⟩
    · have htop : topBit (BitVec.ofNat 256 (2 ^ 255)) := by unfold topBit; decide
      exact ⟨_, by rw [legacyConvertEnding_of_topBit iso htop, endingWord_errFlag]⟩
    · have hclear : ¬ topBit (BitVec.ofNat 256 P) := by unfold topBit; decide
      exact ⟨_, by rw [legacyConvertEnding_of_gt iso hclear (by decide), endingWord_errRange]⟩

theorem erase_word_iff (c : Word) :
    (∃ _ : Buf, endingWord (.complete .ok identityEnc 0 0) = c) ↔ c = 0x00000012 := by
  rw [exists_const, endingWord_ok, eq_comm]

/-! ## A word that is no command (spec/46 R202) -/

theorem illegal_word_of_busyWord {s : State} (hp : s.power = .ready) (hst : s.status = 1) (hhost : s.host = [.engine])
    (hnot : ∀ i, s.cmdr ≠ encode i) : ∃ t, step s = .next t ∧ t.status = 0x00000052 := by
  have hbusy : phase s = .busy := by rw [phase, hst]; decide
  obtain ⟨t, hstep, -, -, -, -, hword⟩ := illegalWordCompletes s [] hp hbusy hhost (hnot .sqrtRatio) (hnot .decompress)
    (hnot .compress) (hnot .legacyConvert) (hnot .erase)
  exact ⟨t, hstep, hword hst⟩

/-- Settles O28: the words of the endings of each command, over all operands, each with operands that give it; and the one word
of the completion with `ERR_ILLEGAL`. -/
theorem outcomesOfEachCommand : Obligations.OutcomesOfEachCommand := by
  have hi : rootOfMinusOne blockSqrtM1 := blockSqrtM1_spec
  refine ⟨fun i c => ?_, fun c => ⟨?_, ?_⟩⟩
  · cases i with
    | sqrtRatio => exact (exists_run_iff .sqrtRatio c).trans (sqrtRatio_word_iff hi c)
    | decompress => exact (exists_run_iff_of_opa (fun _ => rfl) c).trans (decompress_word_iff hi c)
    | compress => exact (exists_run_iff_of_opa (fun _ => rfl) c).trans (compress_word_iff hi c)
    | legacyConvert => exact (exists_run_iff_of_opa (fun _ => rfl) c).trans (legacyConvert_word_iff blockIsoFactor c)
    | erase => exact (exists_run_iff_of_opa (fun _ => rfl) c).trans (erase_word_iff c)
  · rintro ⟨s, t, hp, hst, hhost, hnot, hstep, rfl⟩
    obtain ⟨u, hstep', hword⟩ := illegal_word_of_busyWord hp hst hhost hnot
    cases hstep.symm.trans hstep'
    exact hword
  · rintro rfl
    have hnot : ∀ i, (0 : Word) ≠ encode i := fun i => by cases i <;> decide
    obtain ⟨t, hstep, hword⟩ :=
      illegal_word_of_busyWord (s := { State.reset with status := 1, host := [.engine] }) rfl rfl rfl hnot
    exact ⟨_, t, rfl, rfl, rfl, hnot, hstep, hword⟩

end Sys2Proof.Proofs
end
